-- ==== Sys2Proof/Word.lean ====
section
/-! DEFINITION. The word types of the block's ports (spec/10_state.md R22, R23; spec/00_scope.md R5, R6).
All values are unsigned; bit `i` has weight `2^i`. -/

namespace Sys2Proof

/-- An octet of an Address, and one lane of a port (R10, R42). -/
abbrev Octet := BitVec 8

/-- A value of port `A`, `B` or `R`: `PORTW = 128` bits (R5, R22, R23). -/
abbrev PortWord := BitVec 128

/-- A value of port `N` or `C`: an unsigned 8-bit count (R5, R64). -/
abbrev Count := BitVec 8

/-- A command byte, `CMD[7:0]` (R60). -/
abbrev CommandByte := BitVec 8

/-- The bits of port `STATUS[1:0]` (R23, R65). -/
abbrev StatusBits := BitVec 2

end Sys2Proof
end

