-- ==== Sys2Proof/Config.lean ====
section
/-! DEFINITION. The parameters of the block that are fixed (spec/00_scope.md R2, R5).
The block exists at exactly two operand widths. The spec's four OPEN parameters (LATENCY, HANDSHAKE,
N_INSTANCES, BASE) are no part of this model: no rule depends on them (R5; spec/93 U6; log entry 6).
There is no free value: the block is deterministic (R30). -/

namespace Sys2Proof

/-- The two operand widths (R2): IPv4 (`WSEL = 0`) and IPv6 (`WSEL = 1`) (R61). -/
inductive Width where
  | w32
  | w128
  deriving DecidableEq, Repr

/-- `W`, the operand width in bits (R2). -/
def Width.bits : Width → Nat
  | .w32 => 32
  | .w128 => 128

/-- `NOCT = W / 8`, the number of octets of an Address (R5, R10). -/
def Width.octets (W : Width) : Nat := W.bits / 8

end Sys2Proof
end

