-- ==== Sys2Proof/Syntax.lean ====
section
/-! DEFINITION. The instructions of the block, one constructor per row of spec/opcode_table.json, and the
request that carries one with its operands (spec/30_encoding.md R60 to R63, R69; spec/10_state.md R22). -/

namespace Sys2Proof

/-- The twelve instructions (R62). An instruction has no operand field: the operands are the ports
`A`, `B`, `N` of the same request (R60, R63). -/
inductive Instr where
  | toint32
  | cpfx32
  | cpost32
  | mpfx32
  | mpost32
  | derive32
  | toint128
  | cpfx128
  | cpost128
  | mpfx128
  | mpost128
  | derive128
  deriving DecidableEq, Repr

/-- The six operations: the five functions of BitOps and the one of RangeDeriver (R62). -/
inductive Op where
  | toint
  | cpfx
  | cpost
  | mpfx
  | mpost
  | derive
  deriving DecidableEq, Repr

/-- The instruction that does operation `op` at a width (R62: each operation exists at both widths). -/
def Instr.of : Op → Width → Instr
  | .toint, .w32 => .toint32
  | .cpfx, .w32 => .cpfx32
  | .cpost, .w32 => .cpost32
  | .mpfx, .w32 => .mpfx32
  | .mpost, .w32 => .mpost32
  | .derive, .w32 => .derive32
  | .toint, .w128 => .toint128
  | .cpfx, .w128 => .cpfx128
  | .cpost, .w128 => .cpost128
  | .mpfx, .w128 => .mpfx128
  | .mpost, .w128 => .mpost128
  | .derive, .w128 => .derive128

/-- The operation of an instruction (R62). -/
def Instr.op : Instr → Op
  | .toint32 | .toint128 => .toint
  | .cpfx32 | .cpfx128 => .cpfx
  | .cpost32 | .cpost128 => .cpost
  | .mpfx32 | .mpfx128 => .mpfx
  | .mpost32 | .mpost128 => .mpost
  | .derive32 | .derive128 => .derive

/-- The width of an instruction (R61, R69: the suffix `.32` or `.128`). -/
def Instr.width : Instr → Width
  | .toint32 | .cpfx32 | .cpost32 | .mpfx32 | .mpost32 | .derive32 => .w32
  | .toint128 | .cpfx128 | .cpost128 | .mpfx128 | .mpost128 | .derive128 => .w128

/-- The mnemonic of an instruction (R69; spec/opcode_table.json). -/
def Instr.mnemonic : Instr → String
  | .toint32 => "TOINT.32"
  | .cpfx32 => "CPFX.32"
  | .cpost32 => "CPOST.32"
  | .mpfx32 => "MPFX.32"
  | .mpost32 => "MPOST.32"
  | .derive32 => "DERIVE.32"
  | .toint128 => "TOINT.128"
  | .cpfx128 => "CPFX.128"
  | .cpost128 => "CPOST.128"
  | .mpfx128 => "MPFX.128"
  | .mpost128 => "MPOST.128"
  | .derive128 => "DERIVE.128"

/-- One request: the values of the four request ports (R22). -/
structure Request where
  cmd : CommandByte
  a : PortWord
  b : PortWord
  n : Count
  deriving DecidableEq, Repr

end Sys2Proof
end

