-- ==== Sys2Proof/WellFormed.lean ====
section
/-! DEFINITION. When a request is one the host may issue without a fault: the two duties of
spec/70_reset_and_hazards.md R204 that the block reports when they are neglected. An `Instr` has no field, so
no term of it is ill formed; what can be ill formed is a request. -/

namespace Sys2Proof

/-- `CMD[7:4]`, the reserved field `RSV` (R60). -/
def rsvField (cmd : CommandByte) : BitVec 4 := cmd.extractLsb' 4 4

/-- `CMD[3]`, the width select `WSEL` (R60, R61). -/
def wselField (cmd : CommandByte) : Bool := cmd.getLsbD 3

/-- `CMD[2:0]`, the operation field `OP` (R60, R62). -/
def opField (cmd : CommandByte) : BitVec 3 := cmd.extractLsb' 0 3

/-- A command byte is legal exactly when `CMD[7:4] = 0000` and `CMD[2:0]` is one of `000 .. 101` (R67). -/
def legalCommand (cmd : CommandByte) : Bool :=
  rsvField cmd == 0 && decide ((opField cmd).toNat ≤ 5)

/-- The operation field selects MPFX or MPOST (R62). -/
def selectsMask (cmd : CommandByte) : Bool :=
  opField cmd == 0b011#3 || opField cmd == 0b100#3

/-- `n ≤ W` for the width the command selects (R64, R104, R105). -/
def countInRange (cmd : CommandByte) (n : Count) : Bool :=
  decide (n.toNat ≤ if wselField cmd then 128 else 32)

/-- The host's two checkable duties (R204): a legal command, and `N ≤ W` for MPFX and MPOST. -/
def Request.wellFormed (q : Request) : Bool :=
  legalCommand q.cmd && (!selectsMask q.cmd || countInRange q.cmd q.n)

end Sys2Proof
end

