-- ==== Sys2Proof/Decode.lean ====
section
/-! DEFINITION. The decoder, total on every command byte and rejecting by name (spec/30_encoding.md R60 to R62,
R67, R70), and after it the encoder, written from the table of command values of R62. -/

namespace Sys2Proof

/-- Why a command byte is reserved (R67). The block records neither reason (R173): both end as the fault
`ILLEGAL`. -/
inductive ReservedReason where
  /-- `CMD[7:4]` is not `0000`. -/
  | rsvNotZero
  /-- `CMD[2:0]` is `110` or `111`. -/
  | opReserved
  deriving DecidableEq, Repr

/-- What the decoder says of a command byte: "reserved" is a verdict of its own (spec/93 U3). -/
inductive Decoded where
  | instr (i : Instr)
  | reserved (why : ReservedReason)
  deriving DecidableEq, Repr

/-- The operation of an `OP` code (R62). -/
def decodeOp (op : BitVec 3) : Option Op :=
  if op = 0b000#3 then some .toint
  else if op = 0b001#3 then some .cpfx
  else if op = 0b010#3 then some .cpost
  else if op = 0b011#3 then some .mpfx
  else if op = 0b100#3 then some .mpost
  else if op = 0b101#3 then some .derive
  else none

/-- The width of a `WSEL` bit (R61). -/
def decodeWidth (wsel : Bool) : Width := if wsel then .w128 else .w32

/-- The decoder (R70): the reserved field first, then the operation at the selected width. -/
def decode (cmd : CommandByte) : Decoded :=
  if rsvField cmd ≠ 0 then .reserved .rsvNotZero
  else
    match decodeOp (opField cmd) with
    | some op => .instr (Instr.of op (decodeWidth (wselField cmd)))
    | none => .reserved .opReserved

/-- The instruction of a decoding, if there is one. -/
def Decoded.toOption : Decoded → Option Instr
  | .instr i => some i
  | .reserved _ => none

/-- The command byte of an instruction, from the map of the 256 command values (R62). -/
def encode : Instr → CommandByte
  | .toint32 => 0x00#8
  | .cpfx32 => 0x01#8
  | .cpost32 => 0x02#8
  | .mpfx32 => 0x03#8
  | .mpost32 => 0x04#8
  | .derive32 => 0x05#8
  | .toint128 => 0x08#8
  | .cpfx128 => 0x09#8
  | .cpost128 => 0x0A#8
  | .mpfx128 => 0x0B#8
  | .mpost128 => 0x0C#8
  | .derive128 => 0x0D#8

/-- The command byte laid out from a table word of `nbits` bits. Every row of the table has one byte. -/
def commandOfTableWord (nbits w : Nat) : CommandByte := BitVec.ofNat 8 (w % 2 ^ nbits)

/-- The decoder's reading of a table word (bit 0 is the least significant bit of the command byte). A word
with a bit set above the one byte of a command is no command (log entry 7). -/
def decodeTableWord (nbits w : Nat) : Option Instr :=
  if w % 2 ^ nbits < 256 then (decode (commandOfTableWord nbits w)).toOption else none

end Sys2Proof
end

