-- ==== Sys2Proof/Machine/State.lean ====
section
/-! DEFINITION. The state of the machine: plain data. The block itself keeps nothing (spec/10_state.md R20); the
state holds its request and response ports (R22, R23) and, as the model's own field, what the host will still
present (log entries 1, 2). -/

namespace Sys2Proof.Machine

/-- The faults of spec/60_exceptions.md. A fault records nothing (R172, R173). Each follows the spec's own
instruction on how a model treats it (R176), so each is safe: no value is returned where the block returns none. -/
inductive Fault where
  /-- `FAULT_PRECOND`: raised by MPFX and MPOST when `N > W` (R172). Safe. -/
  | precond
  /-- `FAULT_ILLEGAL`: raised by the step for a reserved command byte (R67, R173). Safe. -/
  | illegal
  deriving DecidableEq, Repr

/-- Why a step has no meaning. -/
inductive Refusal where
  /-- Raised by an arm of `exec` whose instruction has no meaning yet; no arm does so in this model. Safe. -/
  | notModelled (mnemonic : String)
  deriving DecidableEq, Repr

/-- One response: the values of the three response ports (R23). -/
structure Response where
  status : StatusBits
  r : PortWord
  c : Count
  deriving DecidableEq, Repr

/-- The outcome of a transaction before it is packed on the ports: the three shapes of R66 and R170. -/
inductive Verdict where
  /-- `Ok(R, C)`. -/
  | ok (r : PortWord) (c : Count)
  /-- `Err(InvalidNetworkBoundary)`: a recoverable value that carries the error kind only (R171). -/
  | invalidNetworkBoundary
  /-- `Fault(reason)` (R172, R173). -/
  | fault (reason : Fault)
  deriving DecidableEq, Repr

/-- A CIDR block (spec/00_scope.md R12): the network Address, in octet lanes, and the prefix length. -/
structure CidrBlock (w : Nat) where
  network : BitVec w
  prefixLength : Nat
  deriving DecidableEq, Repr

/-- The machine's state. -/
structure State where
  /-- The request ports `CMD`, `A`, `B`, `N` (R22). -/
  req : Request
  /-- The response ports `STATUS`, `R`, `C` (R23). -/
  rsp : Response
  /-- The MODEL's own field: the requests the host will still present, first one first (log entry 2). -/
  pending : List Request
  deriving DecidableEq, Repr

/-- The machine right after reset. R31 gives the request ports no value: 0 is a DESIGN CHOICE (log entry 3). The
response ports are `F` of the request ports "during and after reset alike" (R31), which for that request is
`OK` with `R = 0` and `C = 0` (log entry 4). -/
def State.reset : State where
  req := { cmd := 0, a := 0, b := 0, n := 0 }
  rsp := { status := 0, r := 0, c := 0 }
  pending := []

end Sys2Proof.Machine
end

