-- ==== Sys2Proof/Machine/Operands.lean ====
section
/-! DEFINITION. How operands lie on the ports (spec/20_memory.md R41 to R44, R50; spec/30_encoding.md R63, R64). -/

namespace Sys2Proof.Machine

/-- `low_W(v)`: the low `W` bits of a port value (R9, R50). -/
def lowW (w : Nat) (v : PortWord) : BitVec w := v.setWidth w

/-- `zext_128(v)`: a `W`-bit value on a 128-bit port, the upper bits 0 (R9, R50). -/
def zext128 {w : Nat} (v : BitVec w) : PortWord := v.setWidth 128

/-- The count operand `n` of port `N`: the unsigned number as it stands (R64). -/
def countOperand (n : Count) : Nat := n.toNat

/-- `octet(v, k) = v[8k+7 : 8k]`, octet lane `k` (R9, R42). -/
def octet {w : Nat} (v : BitVec w) (k : Nat) : Octet := v.extractLsb' (8 * k) 8

/-- The octet sequence `o[0] .. o[NOCT-1]` of an Address in octet lanes (R10, R42). -/
def octetsOfLanes {w : Nat} (v : BitVec w) : List Octet := (List.range (w / 8)).map (octet v)

/-- The port value of an octet sequence read as one number: the sum of `o[k] * 2^(8k)` (R42). -/
def lanesNumber : List Octet → Nat
  | [] => 0
  | o :: rest => o.toNat + 2 ^ 8 * lanesNumber rest

/-- An Address in octet lanes, from its octet sequence (R42). -/
def lanesOfOctets (w : Nat) (o : List Octet) : BitVec w := BitVec.ofNat w (lanesNumber o)

/-- The octet sequence of an address held as 16-bit words, `o[2j] = s[j][15:8]` and `o[2j+1] = s[j][7:0]` (R43;
that a word has 16 bits is from general knowledge there, log entry 8). -/
def octetsOfWords : List (BitVec 16) → List Octet
  | [] => []
  | s :: rest => s.extractLsb' 8 8 :: s.extractLsb' 0 8 :: octetsOfWords rest

end Sys2Proof.Machine
end

