-- ==== Sys2Proof/Machine/Flags.lean ====
section
/-! DEFINITION. The block has no flag register (spec/10_state.md R25). What stands here instead: the status codes of
a response (spec/30_encoding.md R65) and the three one-bit comparisons inside DERIVE (R25; spec/40_bitops.md R109). -/

namespace Sys2Proof.Machine

/-- The four outcome classes of port `STATUS` (R65). -/
inductive Status where
  | ok
  | errBoundary
  | faultPrecond
  | faultIllegal
  deriving DecidableEq, Repr

/-- The code of a status (R65). -/
def Status.code : Status → StatusBits
  | .ok => 0b00#2
  | .errBoundary => 0b01#2
  | .faultPrecond => 0b10#2
  | .faultIllegal => 0b11#2

/-- The status a fault shows on the ports (R172, R173). -/
def Fault.status : Fault → Status
  | .precond => .faultPrecond
  | .illegal => .faultIllegal

/-- Step 1 of DERIVE: `network == broadcast`, compared through the integer encodings (R141; 90 C5). -/
def sameAddress {w : Nat} (n b : BitVec w) : Bool := n == b

/-- Step 5 of DERIVE: `(n & host_mask) == 0` (R140). -/
def hostBitsClear {w : Nat} (n hostMask : BitVec w) : Bool := n &&& hostMask == 0

/-- Step 6 of DERIVE: `b == (n | host_mask)` (R140). -/
def isLastAddress {w : Nat} (n b hostMask : BitVec w) : Bool := b == (n ||| hostMask)

end Sys2Proof.Machine
end

