-- ==== Sys2Proof/Machine/Ops.lean ====
section
/-! DEFINITION. The shared operations: the BitOps functions and the derivation over a width parameter
(spec/40_bitops.md, spec/41_range_deriver.md; R107), the packing of an outcome on the ports (R65, R66), the one
operation that ends a transaction, taking a fault included (R176), and what the host does to the ports. -/

namespace Sys2Proof.Machine

/-! ### BitOps functions -/

/-- `to_integer_W` as an unbounded number: the sum of `o[k] * 2^(W - 8 - 8k)`, accumulated as in R101 (R41). -/
def toIntegerNat {w : Nat} (a : BitVec w) : Nat :=
  (List.range (w / 8)).foldl (fun v k => v + (octet a k).toNat * 2 ^ (w - 8 - 8 * k)) 0

/-- `to_integer_W`: big-endian packing, most significant octet first (R41, R101). -/
def toInteger {w : Nat} (a : BitVec w) : BitVec w := BitVec.ofNat w (toIntegerNat a)

/-- The consecutive zero bits of `x` from bit `i - 1` down. -/
def leadingZerosBelow {w : Nat} (x : BitVec w) : Nat → Nat
  | 0 => 0
  | i + 1 => if x.getLsbD i then 0 else 1 + leadingZerosBelow x i

/-- `clz_W(x)`: the consecutive zero bits from bit `W - 1` down; `clz_W(0) = W` (R8). -/
def leadingZeros {w : Nat} (x : BitVec w) : Nat := leadingZerosBelow x w

/-- The consecutive zero bits of `x` from bit `i` up, `m` bits at most. -/
def trailingZerosFrom {w : Nat} (x : BitVec w) (i : Nat) : Nat → Nat
  | 0 => 0
  | m + 1 => if x.getLsbD i then 0 else 1 + trailingZerosFrom x (i + 1) m

/-- `ctz_W(x)`: the consecutive zero bits from bit 0 up; `ctz_W(0) = W` (R8; D12). -/
def trailingZeros {w : Nat} (x : BitVec w) : Nat := trailingZerosFrom x 0 w

/-- `common_prefix_bits(a, b)` (R102). -/
def commonPrefixBits {w : Nat} (a b : BitVec w) : Nat := leadingZeros (a ^^^ b)

/-- `common_postfix_bits(a, b)` (R103). -/
def commonPostfixBits {w : Nat} (a b : BitVec w) : Nat := trailingZeros (a ^^^ b)

/-- `2^W - 2^(W - n)`, in unbounded arithmetic; meant for `n ≤ W` (R104). -/
def prefixMask (w n : Nat) : BitVec w := BitVec.ofNat w (2 ^ w - 2 ^ (w - n))

/-- `2^n - 1`, in unbounded arithmetic; meant for `n ≤ W` (R105). -/
def postfixMask (w n : Nat) : BitVec w := BitVec.ofNat w (2 ^ n - 1)

/-! ### Outcomes of the six operations -/

/-- An `OK` outcome with a vector result: `R = zext_128(x)`, `C = 0` (R63). -/
def vectorResult {w : Nat} (x : BitVec w) : Verdict := .ok (zext128 x) 0

/-- An `OK` outcome with a count result: `R = 0` (R63). -/
def countResult (c : Nat) : Verdict := .ok 0 (BitVec.ofNat 8 c)

/-- A mask result under the precondition `n ≤ W`, whose violation is the fault `PRECOND` (R172). -/
def maskResult {w : Nat} (n : Count) (mask : Nat → BitVec w) : Verdict :=
  if countOperand n > w then .fault .precond else vectorResult (mask (countOperand n))

/-- TOINT.W (R101). -/
def toint {w : Nat} (a : BitVec w) : Verdict := vectorResult (toInteger a)

/-- CPFX.W (R102). -/
def cpfx {w : Nat} (a b : BitVec w) : Verdict := countResult (commonPrefixBits a b)

/-- CPOST.W (R103). -/
def cpost {w : Nat} (a b : BitVec w) : Verdict := countResult (commonPostfixBits a b)

/-- MPFX.W (R104). -/
def mpfx (w : Nat) (n : Count) : Verdict := maskResult n (prefixMask w)

/-- MPOST.W (R105). -/
def mpost (w : Nat) (n : Count) : Verdict := maskResult n (postfixMask w)

/-- `derive(network, broadcast)`: the CIDR block, or none for `InvalidNetworkBoundary` (R140). The network Address
is returned as given (R148). -/
def deriveBlock {w : Nat} (network broadcast : BitVec w) : Option (CidrBlock w) :=
  let n := toInteger network
  let b := toInteger broadcast
  if sameAddress n b then some { network := network, prefixLength := w }
  else
    let p := commonPrefixBits n b
    let hostMask := ~~~ prefixMask w p
    if !hostBitsClear n hostMask then none
    else if !isLastAddress n b hostMask then none
    else some { network := network, prefixLength := p }

/-- The outcome of a derivation: the block on `R` and `C`, or the error kind alone (R140, R151). -/
def blockResult {w : Nat} : Option (CidrBlock w) → Verdict
  | some blk => .ok (zext128 blk.network) (BitVec.ofNat 8 blk.prefixLength)
  | none => .invalidNetworkBoundary

/-- DERIVE.W (R140). -/
def derive {w : Nat} (network broadcast : BitVec w) : Verdict :=
  blockResult (deriveBlock network broadcast)

/-! ### The response ports and the end of a transaction -/

/-- The port values of an outcome: the status code, and `R = 0`, `C = 0` when there is no result (R65, R66). -/
def pack : Verdict → Response
  | .ok r c => { status := Status.ok.code, r := r, c := c }
  | .invalidNetworkBoundary => { status := Status.errBoundary.code, r := 0, c := 0 }
  | .fault f => { status := f.status.code, r := 0, c := 0 }

/-- Drive the response ports; nothing else of the state changes (R29). -/
def State.respond (p : Response) (s : State) : State := { s with rsp := p }

/-- TAKING A FAULT, the one shared operation (R176): no state is saved, none is restored, control goes nowhere; a
model treats the transaction as a fault outcome. What the ports show is `pack (.fault f)`. -/
def raiseFault (f : Fault) : Host.Outcome State Fault Refusal := .fault f

/-- End a transaction with its outcome: a response for `Ok` and for the error value, else the fault (R170). -/
def deliver (v : Verdict) (s : State) : Host.Outcome State Fault Refusal :=
  match v with
  | .fault f => raiseFault f
  | .ok r c => .next (s.respond (pack (.ok r c)))
  | .invalidNetworkBoundary => .next (s.respond (pack .invalidNetworkBoundary))

/-! ### What the host reads and does -/

/-- What the host may read as a result: `R` and `C` only when `STATUS = OK` (R23, R66). -/
def Response.result (p : Response) : Option (PortWord × Count) :=
  if p.status = Status.ok.code then some (p.r, p.c) else none

/-- The host drives the request ports (R22). -/
def State.present (q : Request) (s : State) : State := { s with req := q }

/-- What is on the ports when the next transaction begins: the host's next request if it has one, else the
request it holds there (log entry 2). -/
def State.fetch (s : State) : State :=
  match s.pending with
  | [] => s
  | q :: rest => { s.present q with pending := rest }

end Sys2Proof.Machine
end

