-- ==== Sys2Proof/Machine/BitOps.lean ====
section
/-! DEFINITION. The meanings of the ten BitOps instructions (spec/40_bitops.md R100 to R106). Each reads only the
ports R63 names for it, at the width of its suffix. -/

namespace Sys2Proof.Machine

/-- TOINT.32 (R101). -/
def execToint32 (s : State) : Host.Outcome State Fault Refusal :=
  deliver (toint (lowW 32 s.req.a)) s

/-- CPFX.32 (R102). -/
def execCpfx32 (s : State) : Host.Outcome State Fault Refusal :=
  deliver (cpfx (lowW 32 s.req.a) (lowW 32 s.req.b)) s

/-- CPOST.32 (R103). -/
def execCpost32 (s : State) : Host.Outcome State Fault Refusal :=
  deliver (cpost (lowW 32 s.req.a) (lowW 32 s.req.b)) s

/-- MPFX.32 (R104). -/
def execMpfx32 (s : State) : Host.Outcome State Fault Refusal :=
  deliver (mpfx 32 s.req.n) s

/-- MPOST.32 (R105). -/
def execMpost32 (s : State) : Host.Outcome State Fault Refusal :=
  deliver (mpost 32 s.req.n) s

/-- TOINT.128 (R101). -/
def execToint128 (s : State) : Host.Outcome State Fault Refusal :=
  deliver (toint (lowW 128 s.req.a)) s

/-- CPFX.128 (R102). -/
def execCpfx128 (s : State) : Host.Outcome State Fault Refusal :=
  deliver (cpfx (lowW 128 s.req.a) (lowW 128 s.req.b)) s

/-- CPOST.128 (R103). -/
def execCpost128 (s : State) : Host.Outcome State Fault Refusal :=
  deliver (cpost (lowW 128 s.req.a) (lowW 128 s.req.b)) s

/-- MPFX.128 (R104). -/
def execMpfx128 (s : State) : Host.Outcome State Fault Refusal :=
  deliver (mpfx 128 s.req.n) s

/-- MPOST.128 (R105). -/
def execMpost128 (s : State) : Host.Outcome State Fault Refusal :=
  deliver (mpost 128 s.req.n) s

end Sys2Proof.Machine
end

