-- ==== Sys2Proof/Machine/RangeDeriver.lean ====
section
/-! DEFINITION. The meanings of the two RangeDeriver instructions (spec/41_range_deriver.md R140 to R151). -/

namespace Sys2Proof.Machine

/-- DERIVE.32 (R140). -/
def execDerive32 (s : State) : Host.Outcome State Fault Refusal :=
  deliver (derive (lowW 32 s.req.a) (lowW 32 s.req.b)) s

/-- DERIVE.128 (R140). -/
def execDerive128 (s : State) : Host.Outcome State Fault Refusal :=
  deliver (derive (lowW 128 s.req.a) (lowW 128 s.req.b)) s

end Sys2Proof.Machine
end

