-- ==== Sys2Proof/Machine/Dispatch.lean ====
section
/-! DEFINITION. One arm per instruction (spec/30_encoding.md R62, R70). -/

namespace Sys2Proof.Machine

/-- The meaning of an instruction at the request that stands on the ports. -/
def exec (i : Instr) (s : State) : Host.Outcome State Fault Refusal :=
  match i with
  | .toint32 => Sys2Proof.Machine.execToint32 s
  | .cpfx32 => Sys2Proof.Machine.execCpfx32 s
  | .cpost32 => Sys2Proof.Machine.execCpost32 s
  | .mpfx32 => Sys2Proof.Machine.execMpfx32 s
  | .mpost32 => Sys2Proof.Machine.execMpost32 s
  | .derive32 => Sys2Proof.Machine.execDerive32 s
  | .toint128 => Sys2Proof.Machine.execToint128 s
  | .cpfx128 => Sys2Proof.Machine.execCpfx128 s
  | .cpost128 => Sys2Proof.Machine.execCpost128 s
  | .mpfx128 => Sys2Proof.Machine.execMpfx128 s
  | .mpost128 => Sys2Proof.Machine.execMpost128 s
  | .derive128 => Sys2Proof.Machine.execDerive128 s

end Sys2Proof.Machine
end

