-- ==== Sys2Proof/Machine/Step.lean ====
section
/-! DEFINITION. One step is one transaction (spec/10_state.md R20; spec/30_encoding.md R70): the host's request is on
the ports, the command is decoded first (R175), and the instruction is executed or the reserved command faults. -/

namespace Sys2Proof.Machine

/-- One transaction. -/
def step (s : State) : Host.Outcome State Fault Refusal :=
  match decode s.fetch.req.cmd with
  | .instr i => exec i s.fetch
  | .reserved _ => raiseFault .illegal

/-- `s` with the table word on port `CMD`, and no other request of the host before it: the next transaction is that
command on the operand ports of `s` (log entries 2, 7). -/
def State.withFetchWord (s : State) (nbits w : Nat) : State :=
  { s with req := { s.req with cmd := commandOfTableWord nbits w }, pending := [] }

end Sys2Proof.Machine
end

