-- ==== Sys2Proof/Machine/Transaction.lean ====
section
/-! DEFINITION. The block as the spec's function `F` (spec/10_state.md R20; spec/30_encoding.md R70), and the block at its
ports, where a fault is a response and the next request follows (spec/60_exceptions.md R176, R177). `step` is not written
from these: that the three agree is stated, not assumed. -/

namespace Sys2Proof.Machine

/-- The operations of R70 at one width. -/
def outcomeAtWidth (w : Nat) (op : BitVec 3) (q : Request) : Verdict :=
  if op = 0b000#3 then toint (lowW w q.a)
  else if op = 0b001#3 then cpfx (lowW w q.a) (lowW w q.b)
  else if op = 0b010#3 then cpost (lowW w q.a) (lowW w q.b)
  else if op = 0b011#3 then mpfx w q.n
  else if op = 0b100#3 then mpost w q.n
  else if op = 0b101#3 then derive (lowW w q.a) (lowW w q.b)
  else .fault .illegal

/-- `F(req)`, in the order of checks of R70. -/
def requestOutcome (q : Request) : Verdict :=
  if q.cmd.extractLsb' 4 4 ≠ 0 then .fault .illegal
  else outcomeAtWidth (if q.cmd.getLsbD 3 then 128 else 32) (q.cmd.extractLsb' 0 3) q

/-- The response ports for a request, every outcome packed (R65, R66). -/
def portResponse (q : Request) : Response := pack (requestOutcome q)

/-- One transaction seen at the ports. It does not stop: a fault is shown in its own response and nothing latches
(R176, R177). -/
def portStep (s : State) : State := s.fetch.respond (portResponse s.fetch.req)

/-- `k` transactions seen at the ports. -/
def portRun : Nat → State → State
  | 0, s => s
  | k + 1, s => portRun k (portStep s)

end Sys2Proof.Machine
end

