-- ==== Sys2Proof/Safety.lean ====
section
/-! DEFINITION. What claims are stated in terms of: a host program that never faults, response ports that belong to the
request ports, and the legal responses of each operation. -/

namespace Sys2Proof.Machine

/-- Every request the host will present is well formed (spec/70_reset_and_hazards.md R204); with no request left, the
one it holds on the ports is. -/
def SafeProgram (s : State) : Prop :=
  (∀ q ∈ s.pending, q.wellFormed = true) ∧ (s.pending = [] → s.req.wellFormed = true)

/-- The response ports are `F` of the request ports (spec/10_state.md R31, the reference binding). -/
def Settled (s : State) : Prop := s.rsp = portResponse s.req

/-- The responses an instruction may give when the step goes on, as the spec bounds them: a result status (R65), zero
ports without a result (R66), `R` within `W` bits (R23, R50), `C` in `[0, W]` (R110), the error only from DERIVE
(R65), `C = 0` from the vector operations and `R = 0` from the counts (R63), the network Address returned as given
(R148) and its host bits zero (R144). -/
structure LegalResponse (i : Instr) (q : Request) (p : Response) : Prop where
  status : p.status = Status.ok.code ∨ (p.status = Status.errBoundary.code ∧ i.op = .derive)
  zeroWithoutResult : p.status ≠ Status.ok.code → p.r = 0 ∧ p.c = 0
  vectorWidth : ∀ j, i.width.bits ≤ j → p.r.getLsbD j = false
  countRange : p.c.toNat ≤ i.width.bits
  noCount : i.op = .toint ∨ i.op = .mpfx ∨ i.op = .mpost → p.c = 0
  noVector : i.op = .cpfx ∨ i.op = .cpost → p.r = 0
  networkAsGiven : i.op = .derive → p.status = Status.ok.code →
    p.r = zext128 (lowW i.width.bits q.a)
  hostBitsZero : i.op = .derive → p.status = Status.ok.code →
    (toInteger (lowW i.width.bits p.r)).toNat % 2 ^ (i.width.bits - p.c.toNat) = 0

/-- The response ports hold a legal response to the instruction on the request ports. -/
def PortsLegal (s : State) : Prop :=
  ∃ i, decode s.req.cmd = .instr i ∧ LegalResponse i s.req s.rsp

/-- The integer encoding of the Address on port `A` at width `W`: DERIVE's `n` (spec/41_range_deriver.md R140). -/
def networkInt (W : Width) (s : State) : BitVec W.bits := toInteger (lowW W.bits s.req.a)

/-- The integer encoding of the Address on port `B` at width `W`: DERIVE's `b` (R140). -/
def broadcastInt (W : Width) (s : State) : BitVec W.bits := toInteger (lowW W.bits s.req.b)

/-- Two requests agree on what an operation reads at a width, as the table of spec/30_encoding.md R63 gives it. -/
def SameOperands (op : Op) (W : Width) (q q' : Request) : Prop :=
  match op with
  | .toint => lowW W.bits q.a = lowW W.bits q'.a
  | .cpfx | .cpost | .derive =>
    lowW W.bits q.a = lowW W.bits q'.a ∧ lowW W.bits q.b = lowW W.bits q'.b
  | .mpfx | .mpost => q.n = q'.n

end Sys2Proof.Machine
end

