-- ==== Sys2Proof/Certificates/Slice0/Obligations.lean ====
section
/-! DEFINITION. The statements for the provers. `W` ranges over both widths and `Instr.of op W` is the instruction of
an operation at a width, so a statement "for every W" is about both constructors. A next state written
`{ s with rsp := … }` is the frame as well: request ports and the host's remaining requests are unchanged, and the
block has no register, flag or memory that could change (spec/10_state.md R20 to R29). `s.fetch` is `s` with the
request of the next transaction on the ports: the host's next pending one, else the one it holds there (log entry 2). -/

open Sys2Proof Sys2Proof.Machine

/-! ### Encoding and the step -/

/-- R62: the complete map of the 256 command values. -/
def Obligations.DecodeFollowsTheCommandMap : Prop :=
  decode 0x00#8 = .instr .toint32 ∧ decode 0x08#8 = .instr .toint128 ∧
  decode 0x01#8 = .instr .cpfx32 ∧ decode 0x09#8 = .instr .cpfx128 ∧
  decode 0x02#8 = .instr .cpost32 ∧ decode 0x0A#8 = .instr .cpost128 ∧
  decode 0x03#8 = .instr .mpfx32 ∧ decode 0x0B#8 = .instr .mpfx128 ∧
  decode 0x04#8 = .instr .mpost32 ∧ decode 0x0C#8 = .instr .mpost128 ∧
  decode 0x05#8 = .instr .derive32 ∧ decode 0x0D#8 = .instr .derive128 ∧
  ∀ cmd : CommandByte,
    (cmd = 0x06#8 ∨ cmd = 0x07#8 ∨ cmd = 0x0E#8 ∨ cmd = 0x0F#8 ∨ 0x10 ≤ cmd.toNat) →
    ∃ why, decode cmd = .reserved why

/-- R60, R62: no bit of an encoding is dropped, and no two bytes stand for one instruction. -/
def Obligations.DecodeAndEncodeAgree : Prop :=
  (∀ i : Instr, decode (encode i) = .instr i) ∧
  (∀ (cmd : CommandByte) (i : Instr), decode cmd = .instr i → encode i = cmd)

/-- R61, R206: `CMD[3]` alone selects the width; R62: `CMD[2:0]` selects the operation. -/
def Obligations.WidthComesFromWselAlone : Prop :=
  ∀ (cmd : CommandByte) (i : Instr), decode cmd = .instr i →
    i.width.bits = (if cmd.getLsbD 3 then 128 else 32) ∧
    (cmd.getLsbD 3 = false → decode (cmd ||| 0x08#8) = .instr (Instr.of i.op .w128))

/-- R70, R46: a step is one transaction on the request that stands on the ports. What `fetch` puts there is the
model's own host interface (log entry 2). -/
def Obligations.StepRunsTheDecodedInstruction : Prop :=
  (∀ (s : State) (i : Instr), decode s.fetch.req.cmd = .instr i → step s = exec i s.fetch) ∧
  (∀ s : State, s.pending = [] → s.fetch = s) ∧
  (∀ (s : State) (q : Request) (qs : List Request), s.pending = q :: qs →
    s.fetch = { s with req := q, pending := qs })

/-- R67, R173, R175 (1): reserved commands, and only they, fault as illegal, whatever the operands. -/
def Obligations.ReservedCommandsFault : Prop :=
  (∀ s : State,
    ((s.fetch.req.cmd.extractLsb' 4 4 = 0#4 ∧ (s.fetch.req.cmd.extractLsb' 0 3).toNat ≤ 5) ↔
      (s.fetch.req.cmd.toNat ≤ 0x05 ∨
        (0x08 ≤ s.fetch.req.cmd.toNat ∧ s.fetch.req.cmd.toNat ≤ 0x0D))) ∧
    (¬ (s.fetch.req.cmd.extractLsb' 4 4 = 0#4 ∧ (s.fetch.req.cmd.extractLsb' 0 3).toNat ≤ 5) →
      step s = .fault .illegal ∧ (portStep s).rsp = { status := 0b11#2, r := 0, c := 0 }) ∧
    ((s.fetch.req.cmd.extractLsb' 4 4 = 0#4 ∧ (s.fetch.req.cmd.extractLsb' 0 3).toNat ≤ 5) →
      step s ≠ .fault .illegal)) ∧
  ((List.range 256).filter fun k => !decide (k ≤ 0x05 ∨ (0x08 ≤ k ∧ k ≤ 0x0D))).length = 244

/-- R70: decoding, dispatch and the twelve meanings together compute `F` of the request on the ports. -/
def Obligations.StepComputesF : Prop :=
  ∀ s : State, step s = deliver (requestOutcome s.fetch.req) s.fetch

/-- R170: Ok, the error value, or a fault; no fourth outcome, and never a refusal. -/
def Obligations.EveryRequestEndsInOneOfThreeWays : Prop :=
  ∀ s : State,
    (∃ t, step s = .next t ∧ t.rsp.status = 0b00#2) ∨
    (∃ t, step s = .next t ∧ t.rsp = { status := 0b01#2, r := 0, c := 0 }) ∨
    (step s = .fault .precond ∧ (portStep s).rsp.status = 0b10#2) ∨
    (step s = .fault .illegal ∧ (portStep s).rsp.status = 0b11#2)

/-! ### BitOps -/

/-- R101 (toint32, toint128): the octets are reversed end for end, the bits inside each keep their order. -/
def Obligations.TointPacksOctetsBigEndian : Prop :=
  (decode 0x00#8 = .instr (Instr.of .toint .w32) ∧ decode 0x08#8 = .instr (Instr.of .toint .w128)) ∧
  (∀ (W : Width) (s : State), ∃ r : PortWord,
    exec (Instr.of .toint W) s = .next { s with rsp := { status := 0b00#2, r := r, c := 0 } } ∧
    r.toNat = ∑ k ∈ Finset.range W.octets,
      (s.req.a.extractLsb' (8 * k) 8).toNat * 2 ^ (W.bits - 8 - 8 * k) ∧
    (∀ k < W.octets, r.extractLsb' (W.bits - 8 - 8 * k) 8 = s.req.a.extractLsb' (8 * k) 8) ∧
    (∀ j, W.bits ≤ j → r.getLsbD j = false) ∧
    (s.req.a.setWidth W.bits = 0 → r = 0) ∧
    (s.req.a.setWidth W.bits = BitVec.allOnes W.bits → r = (BitVec.allOnes W.bits).setWidth 128) ∧
    exec (Instr.of .toint W) { s with req := { s.req with a := r } } =
      .next { s with req := { s.req with a := r }
                     rsp := { status := 0b00#2, r := (s.req.a.setWidth W.bits).setWidth 128, c := 0 } })

/-- R102 (cpfx32, cpfx128): the number of leading bits identical between `a` and `b`. -/
def Obligations.CpfxCountsCommonLeadingBits : Prop :=
  (decode 0x01#8 = .instr (Instr.of .cpfx .w32) ∧ decode 0x09#8 = .instr (Instr.of .cpfx .w128)) ∧
  (∀ (W : Width) (s : State), ∃ c : Nat, c ≤ W.bits ∧
    exec (Instr.of .cpfx W) s =
      .next { s with rsp := { status := 0b00#2, r := 0, c := BitVec.ofNat 8 c } } ∧
    (∀ j < c, s.req.a.getLsbD (W.bits - 1 - j) = s.req.b.getLsbD (W.bits - 1 - j)) ∧
    (c < W.bits → s.req.a.getLsbD (W.bits - 1 - c) ≠ s.req.b.getLsbD (W.bits - 1 - c)) ∧
    (c = W.bits ↔ s.req.a.setWidth W.bits = s.req.b.setWidth W.bits))

/-- R103 (cpost32, cpost128): the number of identical trailing bits. -/
def Obligations.CpostCountsCommonTrailingBits : Prop :=
  (decode 0x02#8 = .instr (Instr.of .cpost .w32) ∧ decode 0x0A#8 = .instr (Instr.of .cpost .w128)) ∧
  (∀ (W : Width) (s : State), ∃ c : Nat, c ≤ W.bits ∧
    exec (Instr.of .cpost W) s =
      .next { s with rsp := { status := 0b00#2, r := 0, c := BitVec.ofNat 8 c } } ∧
    (∀ j < c, s.req.a.getLsbD j = s.req.b.getLsbD j) ∧
    (c < W.bits → s.req.a.getLsbD c ≠ s.req.b.getLsbD c) ∧
    (c = W.bits ↔ s.req.a.setWidth W.bits = s.req.b.setWidth W.bits))

/-- R102, R103: symmetric in the operands (cpfx32, cpfx128, cpost32, cpost128). -/
def Obligations.CountsAreSymmetric : Prop :=
  ∀ (W : Width) (op : Op) (s : State), op = .cpfx ∨ op = .cpost →
    ∃ c : Count,
      exec (Instr.of op W) s = .next { s with rsp := { status := 0b00#2, r := 0, c := c } } ∧
      exec (Instr.of op W) { s with req := { s.req with a := s.req.b, b := s.req.a } } =
        .next { s with req := { s.req with a := s.req.b, b := s.req.a }
                       rsp := { status := 0b00#2, r := 0, c := c } }

/-- R104 (mpfx32, mpfx128): the top `n` bits set, rest zero; a fault when `n > W`. -/
def Obligations.MpfxBuildsThePrefixMask : Prop :=
  (decode 0x03#8 = .instr (Instr.of .mpfx .w32) ∧ decode 0x0B#8 = .instr (Instr.of .mpfx .w128)) ∧
  (∀ (W : Width) (s : State),
    (s.req.n.toNat ≤ W.bits → ∃ m : PortWord,
      exec (Instr.of .mpfx W) s = .next { s with rsp := { status := 0b00#2, r := m, c := 0 } } ∧
      m.toNat = 2 ^ W.bits - 2 ^ (W.bits - s.req.n.toNat) ∧
      (∀ j, m.getLsbD j = decide (W.bits - s.req.n.toNat ≤ j ∧ j < W.bits)) ∧
      (s.req.n.toNat < W.bits → leadingZeros (~~~ (m.setWidth W.bits)) = s.req.n.toNat)) ∧
    (W.bits < s.req.n.toNat → exec (Instr.of .mpfx W) s = .fault .precond))

/-- R105 (mpost32, mpost128): the bottom `n` bits set, rest zero; a fault when `n > W`. -/
def Obligations.MpostBuildsThePostfixMask : Prop :=
  (decode 0x04#8 = .instr (Instr.of .mpost .w32) ∧ decode 0x0C#8 = .instr (Instr.of .mpost .w128)) ∧
  (∀ (W : Width) (s : State),
    (s.req.n.toNat ≤ W.bits → ∃ m : PortWord,
      exec (Instr.of .mpost W) s = .next { s with rsp := { status := 0b00#2, r := m, c := 0 } } ∧
      m.toNat = 2 ^ s.req.n.toNat - 1 ∧
      (∀ j, m.getLsbD j = decide (j < s.req.n.toNat))) ∧
    (W.bits < s.req.n.toNat → exec (Instr.of .mpost W) s = .fault .precond))

/-- R106: for every `n` in `[0, W]` the two masks partition the width. -/
def Obligations.MasksPartitionTheWidth : Prop :=
  ∀ (W : Width) (s : State) (n : Nat), n ≤ W.bits → ∃ p q : PortWord,
    exec (Instr.of .mpfx W) { s with req := { s.req with n := BitVec.ofNat 8 n } } =
      .next { s with req := { s.req with n := BitVec.ofNat 8 n }
                     rsp := { status := 0b00#2, r := p, c := 0 } } ∧
    exec (Instr.of .mpost W) { s with req := { s.req with n := BitVec.ofNat 8 (W.bits - n) } } =
      .next { s with req := { s.req with n := BitVec.ofNat 8 (W.bits - n) }
                     rsp := { status := 0b00#2, r := q, c := 0 } } ∧
    p ||| q = (BitVec.allOnes W.bits).setWidth 128 ∧ p &&& q = 0 ∧
    ~~~ (p.setWidth W.bits) = q.setWidth W.bits

/-- R172: exactly the masks with `n > W` fault so; at the ports `STATUS = 10`, `R = 0`, `C = 0`. -/
def Obligations.MaskPreconditionFaults : Prop :=
  (∀ (i : Instr) (s : State),
    exec i s = .fault .precond ↔ (i.op = .mpfx ∨ i.op = .mpost) ∧ i.width.bits < s.req.n.toNat) ∧
  (∀ s : State, step s = .fault .precond →
    (portStep s).rsp = { status := 0b10#2, r := 0, c := 0 })

/-- R8: the zero counts in closed form, with the values at the all-zero and all-one inputs. -/
def Obligations.ZeroCountsInClosedForm : Prop :=
  ∀ (W : Width) (x : BitVec W.bits),
    leadingZeros x ≤ W.bits ∧ trailingZeros x ≤ W.bits ∧
    (x ≠ 0 → leadingZeros x = W.bits - 1 - Nat.log2 x.toNat) ∧
    (x ≠ 0 → 2 ^ trailingZeros x ∣ x.toNat ∧
      ∀ k, 2 ^ k ∣ x.toNat → k ≤ trailingZeros x) ∧
    leadingZeros (0 : BitVec W.bits) = W.bits ∧ trailingZeros (0 : BitVec W.bits) = W.bits ∧
    leadingZeros (BitVec.allOnes W.bits) = 0 ∧ trailingZeros (BitVec.allOnes W.bits) = 0

/-- R205: the 128-bit counts, masks and equality seen through two 64-bit halves. -/
def Obligations.WideOperationsAgreeWithHalves : Prop :=
  (∀ hi lo : BitVec 64,
    leadingZeros (hi ++ lo) = (if hi = 0 then 64 + leadingZeros lo else leadingZeros hi) ∧
    trailingZeros (hi ++ lo) = (if lo = 0 then 64 + trailingZeros hi else trailingZeros lo)) ∧
  (∀ hi lo hi' lo' : BitVec 64, hi ++ lo = hi' ++ lo' ↔ hi = hi' ∧ lo = lo') ∧
  prefixMask 128 0 = 0 ∧ prefixMask 128 64 = BitVec.allOnes 64 ++ (0 : BitVec 64) ∧
  prefixMask 128 128 = BitVec.allOnes 128 ∧
  postfixMask 128 0 = 0 ∧ postfixMask 128 64 = (0 : BitVec 64) ++ BitVec.allOnes 64 ∧
  postfixMask 128 128 = BitVec.allOnes 128

/-- R110: every count driven with `STATUS = OK` lies in `[0, W]`; `C[7:6] = 00` when `W = 32`. -/
def Obligations.CountsLieWithinTheWidth : Prop :=
  ∀ (s t : State) (i : Instr), decode s.fetch.req.cmd = .instr i → step s = .next t →
    t.rsp.status = 0b00#2 →
    t.rsp.c.toNat ≤ i.width.bits ∧ (i.width = .w32 → t.rsp.c.extractLsb' 6 2 = 0#2) ∧
    (i.op = .toint ∨ i.op = .mpfx ∨ i.op = .mpost → t.rsp.c = 0)

/-! ### Addresses on the ports -/

/-- R42: octet `o[k]` lies in lane `k`, so the port value is the sum of `o[k] * 2^(8k)`, the first octet lowest. R41, the
last clause: the integer encoding of the same Address weighs the octets the other way, the first octet highest. -/
def Obligations.AddressLanesAndIntegerEncoding : Prop :=
  ∀ (W : Width) (o : List Octet), o.length = W.octets →
    (∀ k < W.octets, (lanesOfOctets W.bits o).extractLsb' (8 * k) 8 = o.getD k 0) ∧
    octetsOfLanes (lanesOfOctets W.bits o) = o ∧
    (lanesOfOctets W.bits o).toNat =
      ∑ k ∈ Finset.range W.octets, (o.getD k 0).toNat * 2 ^ (8 * k) ∧
    (toInteger (lanesOfOctets W.bits o)).toNat =
      ∑ k ∈ Finset.range W.octets, (o.getD k 0).toNat * 2 ^ (W.bits - 8 - 8 * k)

/-- R41, R109: the integer encoding is a bijection, so equality of Addresses is equality of octets, of integers and
of port values. -/
def Obligations.IntegerEncodingIsABijection : Prop :=
  ∀ W : Width, Function.Bijective (fun a : BitVec W.bits => toInteger a) ∧
    (∀ a : BitVec W.bits, (toInteger a).toNat = ∑ k ∈ Finset.range W.octets,
      (a.extractLsb' (8 * k) 8).toNat * 2 ^ (W.bits - 8 - 8 * k)) ∧
    (∀ a : BitVec W.bits,
      (toInteger a).extractLsb' (W.bits - 8) 8 = a.extractLsb' 0 8 ∧
      (toInteger a).extractLsb' 0 8 = a.extractLsb' (W.bits - 8) 8) ∧
    ∀ a b : BitVec W.bits,
      (toInteger a = toInteger b ↔ a = b) ∧ (octetsOfLanes a = octetsOfLanes b ↔ a = b)

/-- R43: an address held as eight 16-bit words. That a word has 16 bits is general knowledge (log entry 8). -/
def Obligations.WordsOfAnAddressPackBigEndian : Prop :=
  ∀ s : List (BitVec 16), s.length = 8 →
    (toInteger (lanesOfOctets 128 (octetsOfWords s))).toNat =
      ∑ j ∈ Finset.range 8, (s.getD j 0).toNat * 2 ^ (112 - 16 * j)

/-! ### DERIVE (derive32, derive128) -/

/-- R140: the steps of the algorithm, with the host mask read as arithmetic on the integers `n` and `b`. -/
def Obligations.DeriveFollowsItsSteps : Prop :=
  (decode 0x05#8 = .instr (Instr.of .derive .w32) ∧ decode 0x0D#8 = .instr (Instr.of .derive .w128)) ∧
  (∀ (W : Width) (s : State),
    (networkInt W s = broadcastInt W s →
      exec (Instr.of .derive W) s = .next { s with rsp :=
        { status := 0b00#2, r := (s.req.a.setWidth W.bits).setWidth 128
          c := BitVec.ofNat 8 W.bits } }) ∧
    (networkInt W s ≠ broadcastInt W s → ∃ p < W.bits,
      (∀ j < p, (networkInt W s).getLsbD (W.bits - 1 - j) =
        (broadcastInt W s).getLsbD (W.bits - 1 - j)) ∧
      (networkInt W s).getLsbD (W.bits - 1 - p) ≠ (broadcastInt W s).getLsbD (W.bits - 1 - p) ∧
      ((networkInt W s).toNat % 2 ^ (W.bits - p) ≠ 0 →
        exec (Instr.of .derive W) s =
          .next { s with rsp := { status := 0b01#2, r := 0, c := 0 } }) ∧
      ((networkInt W s).toNat % 2 ^ (W.bits - p) = 0 →
        (broadcastInt W s).toNat ≠ (networkInt W s).toNat + (2 ^ (W.bits - p) - 1) →
        exec (Instr.of .derive W) s =
          .next { s with rsp := { status := 0b01#2, r := 0, c := 0 } }) ∧
      ((networkInt W s).toNat % 2 ^ (W.bits - p) = 0 →
        (broadcastInt W s).toNat = (networkInt W s).toNat + (2 ^ (W.bits - p) - 1) →
        exec (Instr.of .derive W) s = .next { s with rsp :=
          { status := 0b00#2, r := (s.req.a.setWidth W.bits).setWidth 128
            c := BitVec.ofNat 8 p } })))

/-- R146, R149: DERIVE accepts exactly the aligned blocks of `2^k` addresses, with prefix length `W - k`. -/
def Obligations.DeriveAcceptsExactlyAlignedBlocks : Prop :=
  ∀ (W : Width) (s : State),
    (∀ k ≤ W.bits, 2 ^ k ∣ (networkInt W s).toNat →
      (broadcastInt W s).toNat = (networkInt W s).toNat + 2 ^ k - 1 →
      exec (Instr.of .derive W) s = .next { s with rsp :=
        { status := 0b00#2, r := (s.req.a.setWidth W.bits).setWidth 128
          c := BitVec.ofNat 8 (W.bits - k) } }) ∧
    ((∀ k ≤ W.bits, ¬ (2 ^ k ∣ (networkInt W s).toNat ∧
        (broadcastInt W s).toNat = (networkInt W s).toNat + 2 ^ k - 1)) →
      exec (Instr.of .derive W) s =
        .next { s with rsp := { status := 0b01#2, r := 0, c := 0 } })

/-- R141: equal addresses always succeed with prefix length `W`, no others do, and the short-circuit is not needed
for the value. -/
def Obligations.EqualAddressesAreASingleHost : Prop :=
  ∀ (W : Width) (s : State),
    (networkInt W s = broadcastInt W s ↔ s.req.a.setWidth W.bits = s.req.b.setWidth W.bits) ∧
    (networkInt W s = broadcastInt W s →
      exec (Instr.of .derive W) s = .next { s with rsp :=
        { status := 0b00#2, r := (s.req.a.setWidth W.bits).setWidth 128
          c := BitVec.ofNat 8 W.bits } }) ∧
    (∀ t, exec (Instr.of .derive W) s = .next t → t.rsp.status = 0b00#2 →
      t.rsp.c = BitVec.ofNat 8 W.bits → networkInt W s = broadcastInt W s) ∧
    (∀ n : BitVec W.bits, commonPrefixBits n n = W.bits ∧
      n &&& ~~~ prefixMask W.bits W.bits = 0 ∧ n = n ||| ~~~ prefixMask W.bits W.bits)

/-- R142: integers that differ only in bit 0 are a block of prefix length `W - 1` exactly when `n[0] = 0`. -/
def Obligations.AdjacentAddressesFormTheSmallestBlock : Prop :=
  (∀ (W : Width) (s : State), broadcastInt W s = networkInt W s ^^^ 1 →
    ((networkInt W s).getLsbD 0 = false →
      exec (Instr.of .derive W) s = .next { s with rsp :=
        { status := 0b00#2, r := (s.req.a.setWidth W.bits).setWidth 128
          c := BitVec.ofNat 8 (W.bits - 1) } }) ∧
    ((networkInt W s).getLsbD 0 = true →
      exec (Instr.of .derive W) s =
        .next { s with rsp := { status := 0b01#2, r := 0, c := 0 } })) ∧
  (∀ s : State,
    exec .derive32 { s with req := { s.req with a := 0x0100000A, b := 0x0200000A } } =
      .next { s with req := { s.req with a := 0x0100000A, b := 0x0200000A }
                     rsp := { status := 0b01#2, r := 0, c := 0 } })

/-- R143: prefix length 0 is the whole space and nothing else. -/
def Obligations.PrefixLengthZeroIsTheWholeSpace : Prop :=
  ∀ (W : Width) (s : State),
    (networkInt W s = 0 ∧ broadcastInt W s = BitVec.allOnes W.bits →
      exec (Instr.of .derive W) s =
        .next { s with rsp := { status := 0b00#2, r := 0, c := 0 } }) ∧
    (∀ t, exec (Instr.of .derive W) s = .next t → t.rsp.status = 0b00#2 → t.rsp.c = 0 →
      networkInt W s = 0 ∧ broadcastInt W s = BitVec.allOnes W.bits)

/-- R144: the host bits of every returned network Address are zero in its integer encoding. -/
def Obligations.DerivedNetworkHasZeroHostBits : Prop :=
  ∀ (W : Width) (s t : State), exec (Instr.of .derive W) s = .next t → t.rsp.status = 0b00#2 →
    toInteger (t.rsp.r.setWidth W.bits) &&&
      BitVec.ofNat W.bits (2 ^ (W.bits - t.rsp.c.toNat) - 1) = 0

/-- R145: the range of the prefix length, and when it is `W`. -/
def Obligations.PrefixLengthLiesInRange : Prop :=
  ∀ (W : Width) (s t : State), exec (Instr.of .derive W) s = .next t → t.rsp.status = 0b00#2 →
    t.rsp.c.toNat ≤ W.bits ∧ (t.rsp.c.toNat = W.bits ↔ networkInt W s = broadcastInt W s) ∧
    (networkInt W s ≠ broadcastInt W s → t.rsp.c.toNat ≤ W.bits - 1)

/-- R147: `n > b` always fails, so a valid pair of different addresses fails when swapped; an equal pair does not. -/
def Obligations.SwappedAddressesFail : Prop :=
  (∀ (W : Width) (s : State), (broadcastInt W s).toNat < (networkInt W s).toNat →
    exec (Instr.of .derive W) s =
      .next { s with rsp := { status := 0b01#2, r := 0, c := 0 } }) ∧
  (∀ (W : Width) (s t : State), exec (Instr.of .derive W) s = .next t → t.rsp.status = 0b00#2 →
    (s.req.a.setWidth W.bits ≠ s.req.b.setWidth W.bits →
      exec (Instr.of .derive W) { s with req := { s.req with a := s.req.b, b := s.req.a } } =
        .next { s with req := { s.req with a := s.req.b, b := s.req.a }
                       rsp := { status := 0b01#2, r := 0, c := 0 } }) ∧
    (s.req.a.setWidth W.bits = s.req.b.setWidth W.bits →
      exec (Instr.of .derive W) { s with req := { s.req with a := s.req.b, b := s.req.a } } =
        .next { s with req := { s.req with a := s.req.b, b := s.req.a }, rsp := t.rsp })) ∧
  (∀ s : State,
    exec .derive32 { s with req := { s.req with a := 0x0200007F, b := 0x0100007F } } =
      .next { s with req := { s.req with a := 0x0200007F, b := 0x0100007F }
                     rsp := { status := 0b01#2, r := 0, c := 0 } })

/-- R148, R151: one atomic step; the block complete with the network Address bit for bit as supplied, or the error with
zero ports; and retrying the unchanged request gives the same response. -/
def Obligations.DeriveIsAtomicAndNeverNormalizes : Prop :=
  ∀ (W : Width) (s : State), ∃ t, exec (Instr.of .derive W) s = .next t ∧
    t.req = s.req ∧ t.pending = s.pending ∧
    ((t.rsp.status = 0b00#2 ∧ t.rsp.r = (s.req.a.setWidth W.bits).setWidth 128 ∧
        t.rsp.c.toNat ≤ W.bits) ∨
      t.rsp = { status := 0b01#2, r := 0, c := 0 }) ∧
    exec (Instr.of .derive W) t = .next t

/-- spec/95 program 1, R102, R105, R106: DERIVE is what the host computes from CPFX and MPOST and the two checks. -/
def Obligations.DeriveAgreesWithBitOps : Prop :=
  ∀ (W : Width) (s : State), ∃ t u : State,
    exec (Instr.of .cpfx W) { s with req := { s.req with
        a := (networkInt W s).setWidth 128, b := (broadcastInt W s).setWidth 128 } } = .next t ∧
    exec (Instr.of .mpost W) { s with req := { s.req with
        n := BitVec.ofNat 8 (W.bits - t.rsp.c.toNat) } } = .next u ∧
    exec (Instr.of .derive W) s = .next { s with rsp :=
      (if networkInt W s &&& u.rsp.r.setWidth W.bits = 0 ∧
          broadcastInt W s = networkInt W s ||| u.rsp.r.setWidth W.bits then
        { status := 0b00#2, r := (s.req.a.setWidth W.bits).setWidth 128, c := t.rsp.c }
      else { status := 0b01#2, r := 0, c := 0 }) }

/-! ### Status, faults and ports -/

/-- R65: the four codes, what each means, and which operation can give which. -/
def Obligations.StatusesPerOperation : Prop :=
  (Status.ok.code = 0b00#2 ∧ Status.errBoundary.code = 0b01#2 ∧
    Status.faultPrecond.code = 0b10#2 ∧ Status.faultIllegal.code = 0b11#2) ∧
  (∀ (i : Instr) (s t : State), exec i s = .next t →
    t.rsp.status = 0b00#2 ∨ (t.rsp.status = 0b01#2 ∧ i.op = .derive)) ∧
  (∀ (i : Instr) (s : State) (f : Fault), exec i s = .fault f →
    f = .precond ∧ (i.op = .mpfx ∨ i.op = .mpost) ∧ i.width.bits < s.req.n.toNat) ∧
  (∀ (W : Width) (s t : State), exec (Instr.of .derive W) s = .next t →
    (t.rsp.status = 0b01#2 ↔ ∀ k ≤ W.bits, ¬ (2 ^ k ∣ (networkInt W s).toNat ∧
      (broadcastInt W s).toNat = (networkInt W s).toNat + 2 ^ k - 1))) ∧
  (∀ s : State, step s = .fault .illegal ↔ ∃ why, decode s.fetch.req.cmd = .reserved why) ∧
  (∀ (i : Instr) (s : State), i.op = .toint ∨ i.op = .cpfx ∨ i.op = .cpost →
    ∃ t, exec i s = .next t ∧ t.rsp.status = 0b00#2)

/-- R66: without a result the result ports are zero, in a step that goes on and in every port response. -/
def Obligations.NoResultMeansZeroPorts : Prop :=
  (∀ q : Request, (portResponse q).status ≠ 0b00#2 →
    (portResponse q).r = 0 ∧ (portResponse q).c = 0) ∧
  (∀ s t : State, step s = .next t → t.rsp.status ≠ 0b00#2 → t.rsp.r = 0 ∧ t.rsp.c = 0)

/-- R176, R172, R173: where the step goes on, the ports show its response; where it faults, they show the fault's
code and zeros, and nothing else of the state changes. -/
def Obligations.PortsShowEveryOutcome : Prop :=
  (∀ s t : State, step s = .next t → portStep s = t) ∧
  (∀ s : State, step s = .fault .precond →
    portStep s = { s.fetch with rsp := { status := 0b10#2, r := 0, c := 0 } }) ∧
  (∀ s : State, step s = .fault .illegal →
    portStep s = { s.fetch with rsp := { status := 0b11#2, r := 0, c := 0 } })

/-- R177: a fault does not latch: after any transactions at all, faulted or not, the next request is answered by its
own rule. -/
def Obligations.FaultsDoNotLatch : Prop :=
  ∀ (s : State) (k : Nat) (q : Request),
    step { portRun k s with pending := [q] } =
      deliver (requestOutcome q) { portRun k s with req := q, pending := [] } ∧
    (portStep { portRun k s with pending := [q] }).rsp = portResponse q

/-! ### Independence, the host's program, invariants -/

/-- R29: no request port is driven by the block, and the host's remaining requests are its own. -/
def Obligations.RequestPortsAreNeverDriven : Prop :=
  (∀ (i : Instr) (s t : State), exec i s = .next t → t.req = s.req ∧ t.pending = s.pending) ∧
  (∀ s t : State, step s = .next t → t.req = s.fetch.req ∧ t.pending = s.fetch.pending)

/-- R63, R22, R50: ports and bits an operation does not read have no influence on the response. -/
def Obligations.IgnoredPortsHaveNoInfluence : Prop :=
  ∀ (op : Op) (W : Width) (s s' : State), SameOperands op W s.req s'.req →
    (∀ f, exec (Instr.of op W) s = .fault f ↔ exec (Instr.of op W) s' = .fault f) ∧
    (∀ t, exec (Instr.of op W) s = .next t →
      exec (Instr.of op W) s' = .next { s' with rsp := t.rsp })

/-- R20, R48: the response is determined by the request of the same transaction and by nothing else. -/
def Obligations.ResponseDependsOnItsRequestAlone : Prop :=
  ∀ s s' : State, s.fetch.req = s'.fetch.req →
    (∀ f, step s = .fault f ↔ step s' = .fault f) ∧
    (∀ t, step s = .next t → step s' = .next { s'.fetch with rsp := t.rsp })

/-- R40: presenting the same request twice gives the same response twice. -/
def Obligations.RepeatedRequestRepeatsItsResponse : Prop :=
  ∀ s t : State, step s = .next t → step { t with pending := [t.req] } = .next { t with pending := [] } ∧
    (t.pending = [] → step t = .next t)

/-- R204: one well-formed request never faults, and a request that is not well formed does. -/
def Obligations.WellFormedRequestsAreAnswered : Prop :=
  ∀ s : State, (s.fetch.req.wellFormed = true ↔ ∃ t, step s = .next t) ∧
    (s.fetch.req.wellFormed = false ↔ step s = .fault .precond ∨ step s = .fault .illegal)

/-- A host program of well-formed requests runs for ever without a fault (R204, R170; log entry 2). -/
def Obligations.SafeProgramsNeverFault : Prop :=
  ∀ s : State, SafeProgram s → ∀ k : Nat,
    ∃ t, Sys2Proof.core.run k s = .next t ∧ SafeProgram t

/-- R48, R202: in a run of a host program every response is that of its own request, in order, whatever came before. -/
def Obligations.ProgramResponsesAreIndependent : Prop :=
  ∀ (qs : List Request) (s : State), (∀ q ∈ qs, q.wellFormed = true) →
    ∀ (k : Nat) (q : Request), qs[k]? = some q →
      Sys2Proof.core.run (k + 1) { s with pending := qs } =
        .next { req := q, rsp := portResponse q, pending := qs.drop (k + 1) }

/-- What the model says of the state after reset: the ports hold the request log entry 3 chooses, and the response
ports are `F` of it (R31; log entries 2, 3, 4). -/
def Obligations.ResetIsSettled : Prop :=
  Settled State.reset ∧ SafeProgram State.reset ∧ State.reset.pending = [] ∧
  State.reset.req = { cmd := 0, a := 0, b := 0, n := 0 } ∧
  State.reset.rsp = { status := 0, r := 0, c := 0 }

/-- R200: the first request after reset is executed exactly like any other request. -/
def Obligations.FirstRequestAfterResetIsLikeAnyOther : Prop :=
  ∀ (s : State) (q : Request),
    (∀ f, step { State.reset with pending := [q] } = .fault f ↔
      step { s with pending := [q] } = .fault f) ∧
    (∀ t, step { State.reset with pending := [q] } = .next t ↔
      step { s with pending := [q] } = .next t)

/-- R31: after every transaction the response ports are `F` of the request ports. -/
def Obligations.StepsKeepPortsSettled : Prop :=
  (∀ s t : State, Settled s → step s = .next t → Settled t) ∧
  (∀ s : State, Settled (portStep s))

/-- R23, R50, R63, R65, R66, R110, R144, R148: every step keeps the response ports legal for the request on the
request ports. -/
def Obligations.StepsKeepPortsLegal : Prop :=
  ∀ s t : State, PortsLegal s → step s = .next t → PortsLegal t

/-- The response ports are legal after reset (log entries 3, 4). -/
def Obligations.ResetPortsAreLegal : Prop :=
  PortsLegal State.reset
end

