-- ==== Sys2Proof/Laws/Decode.lean ====
section
/-! SUPPORT. The small lemmas of the syntax and the decoder. -/

namespace Sys2Proof

theorem Width.bits_le (W : Width) : W.bits ≤ 128 := by cases W <;> decide
theorem Width.bits_pos (W : Width) : 0 < W.bits := by cases W <;> decide
theorem Width.bits_eq (W : Width) : W.bits = 8 * W.octets := by cases W <;> rfl

@[simp] theorem Instr.of_op_width (i : Instr) : Instr.of i.op i.width = i := by
  cases i <;> rfl
@[simp] theorem Instr.op_of (op : Op) (W : Width) : (Instr.of op W).op = op := by
  cases op <;> cases W <;> rfl
@[simp] theorem Instr.width_of (op : Op) (W : Width) : (Instr.of op W).width = W := by
  cases op <;> cases W <;> rfl

@[simp] theorem decodeWidth_bits (wsel : Bool) :
    (decodeWidth wsel).bits = if wsel then 128 else 32 := by
  cases wsel <;> rfl

/-- Everything the decoder can say of an operation code. -/
theorem decodeOp_cases (op : BitVec 3) :
    (op = 0b000#3 ∧ decodeOp op = some .toint) ∨ (op = 0b001#3 ∧ decodeOp op = some .cpfx) ∨
    (op = 0b010#3 ∧ decodeOp op = some .cpost) ∨ (op = 0b011#3 ∧ decodeOp op = some .mpfx) ∨
    (op = 0b100#3 ∧ decodeOp op = some .mpost) ∨ (op = 0b101#3 ∧ decodeOp op = some .derive) ∨
    ((op = 0b110#3 ∨ op = 0b111#3) ∧ decodeOp op = none) := by
  revert op; decide

/-- Everything the decoder can say of a command byte. -/
theorem decode_cases (cmd : CommandByte) :
    (rsvField cmd ≠ 0 ∧ decode cmd = .reserved .rsvNotZero) ∨
    (rsvField cmd = 0 ∧ decodeOp (opField cmd) = none ∧ decode cmd = .reserved .opReserved) ∨
    ∃ op, rsvField cmd = 0 ∧ decodeOp (opField cmd) = some op ∧
      decode cmd = .instr (Instr.of op (decodeWidth (wselField cmd))) := by
  by_cases h : rsvField cmd = 0
  · cases ho : decodeOp (opField cmd) with
    | none => exact .inr (.inl ⟨h, rfl, by simp [decode, h, ho]⟩)
    | some op => exact .inr (.inr ⟨op, h, rfl, by simp [decode, h, ho]⟩)
  · exact .inl ⟨h, if_pos h⟩

/-- The legal commands are those the decoder reads (R67). -/
theorem legalCommand_iff (cmd : CommandByte) :
    legalCommand cmd = true ↔ rsvField cmd = 0 ∧ (opField cmd).toNat ≤ 5 := by
  simp [legalCommand]

end Sys2Proof
end

