-- ==== Sys2Proof/Laws/Operands.lean ====
section
/-! SUPPORT. What the port operations do, bit by bit and as numbers. -/

namespace Sys2Proof.Machine

@[simp] theorem lowW_getLsbD (w : Nat) (v : PortWord) (i : Nat) :
    (lowW w v).getLsbD i = (decide (i < w) && v.getLsbD i) := by
  simp [lowW]

@[simp] theorem zext128_getLsbD {w : Nat} (v : BitVec w) (i : Nat) :
    (zext128 v).getLsbD i = (decide (i < 128) && v.getLsbD i) := by
  simp [zext128]

@[simp] theorem lowW_getElem (w : Nat) (v : PortWord) {i : Nat} (h : i < w) :
    (lowW w v)[i] = v.getLsbD i := by
  simp [← BitVec.getLsbD_eq_getElem, h]

@[simp] theorem zext128_getElem {w : Nat} (v : BitVec w) {i : Nat} (h : i < 128) :
    (zext128 v)[i] = v.getLsbD i := by
  simp [← BitVec.getLsbD_eq_getElem, h]

theorem zext128_toNat {w : Nat} (h : w ≤ 128) (v : BitVec w) : (zext128 v).toNat = v.toNat :=
  BitVec.toNat_setWidth_of_le h

theorem lowW_zext128 {w : Nat} (h : w ≤ 128) (v : BitVec w) : lowW w (zext128 v) = v := by
  apply BitVec.eq_of_toNat_eq
  rw [lowW, BitVec.toNat_setWidth, zext128_toNat h, Nat.mod_eq_of_lt v.isLt]

@[simp] theorem octet_getLsbD {w : Nat} (v : BitVec w) (k j : Nat) :
    (octet v k).getLsbD j = (decide (j < 8) && v.getLsbD (8 * k + j)) := by
  simp [octet]

@[simp] theorem octet_getElem {w : Nat} (v : BitVec w) (k : Nat) {j : Nat} (h : j < 8) :
    (octet v k)[j] = v.getLsbD (8 * k + j) := by
  simp [← BitVec.getLsbD_eq_getElem, h]

@[simp] theorem octetsOfLanes_length {w : Nat} (v : BitVec w) :
    (octetsOfLanes v).length = w / 8 := by
  simp [octetsOfLanes]

theorem octetsOfWords_length (s : List (BitVec 16)) :
    (octetsOfWords s).length = 2 * s.length := by
  induction s with
  | nil => rfl
  | cons x rest ih => simp only [octetsOfWords, List.length_cons, ih]; omega

/-- A number built from octets, least significant octet first: its size, and its bits. -/
theorem octetSum_lt (f : Nat → Octet) (n : Nat) :
    ∑ k ∈ Finset.range n, (f k).toNat * 2 ^ (8 * k) < 2 ^ (8 * n) := by
  induction n with
  | zero => simp
  | succ n ih =>
    rw [Finset.sum_range_succ]
    have h8 : 2 ^ (8 * (n + 1)) = 256 * 2 ^ (8 * n) := by
      rw [Nat.mul_succ, Nat.pow_add]; omega
    have := Nat.mul_le_mul_right (2 ^ (8 * n)) (Nat.le_of_lt_succ (f n).isLt)
    omega

theorem octetSum_testBit (f : Nat → Octet) {n k j : Nat} (hk : k < n) (hj : j < 8) :
    (∑ k ∈ Finset.range n, (f k).toNat * 2 ^ (8 * k)).testBit (8 * k + j) = (f k).getLsbD j := by
  induction n with
  | zero => omega
  | succ n ih =>
    rw [Finset.sum_range_succ, Nat.add_comm, Nat.mul_comm,
      Nat.testBit_two_pow_mul_add _ (octetSum_lt f n)]
    by_cases h : k < n
    · rw [if_pos (by omega), ih h]
    · obtain rfl : k = n := by omega
      rw [if_neg (by omega), Nat.add_sub_cancel_left, ← BitVec.testBit_toNat]

/-- The lane presentation as a sum over its octets (R42). -/
theorem lanesNumber_eq_sum (o : List Octet) :
    lanesNumber o = ∑ k ∈ Finset.range o.length, (o.getD k 0).toNat * 2 ^ (8 * k) := by
  induction o with
  | nil => simp [lanesNumber]
  | cons x rest ih =>
    rw [lanesNumber, List.length_cons, Finset.sum_range_succ', ih, Finset.mul_sum]
    simp only [List.getD_cons_succ, List.getD_cons_zero, Nat.mul_zero, Nat.pow_zero, Nat.mul_one]
    rw [Nat.add_comm]
    congr 1
    refine Finset.sum_congr rfl fun k _ => ?_
    rw [Nat.mul_succ, Nat.pow_add]; ring

end Sys2Proof.Machine
end

