-- ==== Sys2Proof/Laws/Ops.lean ====
section
/-! SUPPORT. One lemma per shared operation that says what it does, for later proofs to cite instead of unfolding it. -/

namespace Sys2Proof.Machine

/-! ### to_integer -/

theorem foldl_range_add (f : Nat → Nat) (n : Nat) :
    (List.range n).foldl (fun v k => v + f k) 0 = ∑ k ∈ Finset.range n, f k := by
  induction n with
  | zero => simp
  | succ n ih => rw [List.range_succ, List.foldl_append, ih, Finset.sum_range_succ]; rfl

theorem toIntegerNat_eq_sum {w : Nat} (a : BitVec w) :
    toIntegerNat a = ∑ k ∈ Finset.range (w / 8), (octet a k).toNat * 2 ^ (w - 8 - 8 * k) :=
  foldl_range_add _ _

/-- The big-endian sum read from its last octet. -/
theorem toIntegerNat_eq_reverse {m : Nat} (a : BitVec (8 * m)) :
    toIntegerNat a = ∑ k ∈ Finset.range m, (octet a (m - 1 - k)).toNat * 2 ^ (8 * k) := by
  rw [toIntegerNat_eq_sum, Nat.mul_div_cancel_left m (by decide),
    ← Finset.sum_range_reflect (fun k => (octet a (m - 1 - k)).toNat * 2 ^ (8 * k)) m]
  refine Finset.sum_congr rfl fun k hk => ?_
  have hk := Finset.mem_range.1 hk
  rw [show m - 1 - (m - 1 - k) = k by omega, show 8 * m - 8 - 8 * k = 8 * (m - 1 - k) by omega]

/-- `to_integer` loses nothing when it narrows to `W` bits. -/
theorem toInteger_toNat {m : Nat} (a : BitVec (8 * m)) : (toInteger a).toNat = toIntegerNat a := by
  rw [toInteger, BitVec.toNat_ofNat, Nat.mod_eq_of_lt]
  rw [toIntegerNat_eq_reverse]
  exact octetSum_lt _ _

/-- The octets are reversed end for end and the bits inside each keep their order (R101). -/
theorem toInteger_getLsbD {m : Nat} (a : BitVec (8 * m)) {k j : Nat} (hk : k < m) (hj : j < 8) :
    (toInteger a).getLsbD (8 * (m - 1 - k) + j) = a.getLsbD (8 * k + j) := by
  rw [← BitVec.testBit_toNat, toInteger_toNat, toIntegerNat_eq_reverse,
    octetSum_testBit (fun k => octet a (m - 1 - k)) (by omega) hj, octet_getLsbD]
  simp [hj, show m - 1 - (m - 1 - k) = k by omega]

theorem toInteger_toInteger {m : Nat} (a : BitVec (8 * m)) : toInteger (toInteger a) = a := by
  apply BitVec.eq_of_getLsbD_eq
  intro i hi
  have h1 := toInteger_getLsbD (toInteger a) (k := m - 1 - i / 8) (j := i % 8) (by omega) (by omega)
  have h2 := toInteger_getLsbD a (k := i / 8) (j := i % 8) (by omega) (by omega)
  rw [h2] at h1
  rwa [show 8 * (m - 1 - (m - 1 - i / 8)) + i % 8 = i by omega,
    show 8 * (i / 8) + i % 8 = i by omega] at h1

theorem toInteger_inj {m : Nat} {a b : BitVec (8 * m)} : toInteger a = toInteger b ↔ a = b :=
  ⟨fun h => by rw [← toInteger_toInteger a, h, toInteger_toInteger], fun h => by rw [h]⟩

/-! The same at the two widths of the block. -/

theorem toInteger_eq_sum (W : Width) (a : BitVec W.bits) :
    (toInteger a).toNat =
      ∑ k ∈ Finset.range W.octets, (octet a k).toNat * 2 ^ (W.bits - 8 - 8 * k) := by
  have h : (toInteger a).toNat = toIntegerNat a := by
    cases W
    · exact toInteger_toNat (m := 4) a
    · exact toInteger_toNat (m := 16) a
  rw [h, toIntegerNat_eq_sum]; rfl

theorem toInteger_involutive (W : Width) (a : BitVec W.bits) : toInteger (toInteger a) = a := by
  cases W
  · exact toInteger_toInteger (m := 4) a
  · exact toInteger_toInteger (m := 16) a

theorem toInteger_bit (W : Width) (a : BitVec W.bits) {k j : Nat} (hk : k < W.octets)
    (hj : j < 8) : (toInteger a).getLsbD (W.bits - 8 - 8 * k + j) = a.getLsbD (8 * k + j) := by
  rw [show W.bits - 8 - 8 * k + j = 8 * (W.octets - 1 - k) + j by have := W.bits_eq; omega]
  cases W
  · exact toInteger_getLsbD (m := 4) a hk hj
  · exact toInteger_getLsbD (m := 16) a hk hj

/-! ### Zero counts -/

theorem leadingZerosBelow_spec {w : Nat} (x : BitVec w) (i : Nat) :
    leadingZerosBelow x i ≤ i ∧
    (∀ j < leadingZerosBelow x i, x.getLsbD (i - 1 - j) = false) ∧
    (leadingZerosBelow x i < i → x.getLsbD (i - 1 - leadingZerosBelow x i) = true) := by
  induction i with
  | zero => simp [leadingZerosBelow]
  | succ i ih =>
    obtain ⟨hle, hz, ho⟩ := ih
    rw [leadingZerosBelow]
    split
    · rename_i h
      simpa using h
    · rename_i h
      refine ⟨by omega, fun j hj => ?_, fun hlt => ?_⟩
      · cases j with
        | zero => simpa using h
        | succ j => rw [show i + 1 - 1 - (j + 1) = i - 1 - j by omega]; exact hz j (by omega)
      · rw [show i + 1 - 1 - (1 + leadingZerosBelow x i) = i - 1 - leadingZerosBelow x i by omega]
        exact ho (by omega)

/-- What `clz_W` counts (R8). -/
theorem leadingZeros_spec {w : Nat} (x : BitVec w) :
    leadingZeros x ≤ w ∧
    (∀ j < leadingZeros x, x.getLsbD (w - 1 - j) = false) ∧
    (leadingZeros x < w → x.getLsbD (w - 1 - leadingZeros x) = true) :=
  leadingZerosBelow_spec x w

/-- The count is the only number that does so. -/
theorem leadingZeros_unique {w : Nat} {x : BitVec w} {c : Nat} (hc : c ≤ w)
    (hz : ∀ j < c, x.getLsbD (w - 1 - j) = false) (ho : c < w → x.getLsbD (w - 1 - c) = true) :
    leadingZeros x = c := by
  obtain ⟨hle, hz', ho'⟩ := leadingZeros_spec x
  rcases Nat.lt_trichotomy (leadingZeros x) c with h | h | h
  · have := hz _ h; rw [ho' (by omega)] at this; exact absurd this (by decide)
  · exact h
  · have := hz' _ h; rw [ho (by omega)] at this; exact absurd this (by decide)

theorem trailingZerosFrom_spec {w : Nat} (x : BitVec w) (i m : Nat) :
    trailingZerosFrom x i m ≤ m ∧
    (∀ j < trailingZerosFrom x i m, x.getLsbD (i + j) = false) ∧
    (trailingZerosFrom x i m < m → x.getLsbD (i + trailingZerosFrom x i m) = true) := by
  induction m generalizing i with
  | zero => simp [trailingZerosFrom]
  | succ m ih =>
    obtain ⟨hle, hz, ho⟩ := ih (i + 1)
    rw [trailingZerosFrom]
    split
    · rename_i h
      simpa using h
    · rename_i h
      refine ⟨by omega, fun j hj => ?_, fun hlt => ?_⟩
      · cases j with
        | zero => simpa using h
        | succ j => rw [show i + (j + 1) = i + 1 + j by omega]; exact hz j (by omega)
      · rw [← Nat.add_assoc]; exact ho (by omega)

/-- What `ctz_W` counts (R8). -/
theorem trailingZeros_spec {w : Nat} (x : BitVec w) :
    trailingZeros x ≤ w ∧ (∀ j < trailingZeros x, x.getLsbD j = false) ∧
    (trailingZeros x < w → x.getLsbD (trailingZeros x) = true) := by
  simpa [trailingZeros] using trailingZerosFrom_spec x 0 w

/-- The count is the only number that does so. -/
theorem trailingZeros_unique {w : Nat} {x : BitVec w} {c : Nat} (hc : c ≤ w)
    (hz : ∀ j < c, x.getLsbD j = false) (ho : c < w → x.getLsbD c = true) :
    trailingZeros x = c := by
  obtain ⟨hle, hz', ho'⟩ := trailingZeros_spec x
  rcases Nat.lt_trichotomy (trailingZeros x) c with h | h | h
  · have := hz _ h; rw [ho' (by omega)] at this; exact absurd this (by decide)
  · exact h
  · have := hz' _ h; rw [ho (by omega)] at this; exact absurd this (by decide)

theorem commonPrefixBits_le {w : Nat} (a b : BitVec w) : commonPrefixBits a b ≤ w :=
  (leadingZeros_spec _).1

theorem commonPostfixBits_le {w : Nat} (a b : BitVec w) : commonPostfixBits a b ≤ w :=
  (trailingZeros_spec _).1

@[simp] theorem commonPrefixBits_self {w : Nat} (a : BitVec w) : commonPrefixBits a a = w :=
  leadingZeros_unique (Nat.le_refl w) (by simp) (by omega)

/-- The prefix count is the whole width only for equal values (R102). -/
theorem commonPrefixBits_eq_width {w : Nat} {a b : BitVec w} :
    commonPrefixBits a b = w ↔ a = b := by
  refine ⟨fun h => BitVec.eq_of_getLsbD_eq fun i hi => ?_, fun h => by rw [h, commonPrefixBits_self]⟩
  have := (leadingZeros_spec (a ^^^ b)).2.1 (w - 1 - i) (by rw [commonPrefixBits] at h; omega)
  rw [show w - 1 - (w - 1 - i) = i by omega] at this
  simpa using this

/-- The postfix count is the whole width only for equal values (R103). -/
theorem commonPostfixBits_eq_width {w : Nat} {a b : BitVec w} :
    commonPostfixBits a b = w ↔ a = b := by
  refine ⟨fun h => BitVec.eq_of_getLsbD_eq fun i hi => ?_, ?_⟩
  · have := (trailingZeros_spec (a ^^^ b)).2.1 i (by rw [commonPostfixBits] at h; omega)
    simpa using this
  · rintro rfl
    exact trailingZeros_unique (Nat.le_refl w) (by simp) (by omega)

/-! ### Masks -/

theorem prefixMask_getLsbD {w n : Nat} (h : n ≤ w) (j : Nat) :
    (prefixMask w n).getLsbD j = decide (w - n ≤ j ∧ j < w) := by
  have hp : 2 ^ w - 2 ^ (w - n) = 2 ^ (w - n) * (2 ^ n - 1) := by
    rw [Nat.mul_sub, ← Nat.pow_add, Nat.sub_add_cancel h, Nat.mul_one]
  rw [prefixMask, BitVec.getLsbD_ofNat, hp, Nat.testBit_two_pow_mul, Nat.testBit_two_pow_sub_one,
    Bool.eq_iff_iff]
  simp only [Bool.and_eq_true, decide_eq_true_eq]
  omega

theorem prefixMask_toNat {w n : Nat} : (prefixMask w n).toNat = 2 ^ w - 2 ^ (w - n) := by
  rw [prefixMask, BitVec.toNat_ofNat, Nat.mod_eq_of_lt]
  have := Nat.two_pow_pos (w - n)
  have := Nat.two_pow_pos w
  omega

theorem postfixMask_getLsbD {w n : Nat} (h : n ≤ w) (j : Nat) :
    (postfixMask w n).getLsbD j = decide (j < n) := by
  rw [postfixMask, BitVec.getLsbD_ofNat, Nat.testBit_two_pow_sub_one, Bool.eq_iff_iff]
  simp only [Bool.and_eq_true, decide_eq_true_eq]
  omega

theorem postfixMask_toNat {w n : Nat} (h : n ≤ w) : (postfixMask w n).toNat = 2 ^ n - 1 := by
  rw [postfixMask, BitVec.toNat_ofNat, Nat.mod_eq_of_lt]
  have := Nat.two_pow_pos n
  have := Nat.pow_le_pow_right (show 2 > 0 by decide) h
  omega

/-- The host mask of step 4 is the postfix mask of the host-bit count (R106). -/
theorem not_prefixMask {w n : Nat} (h : n ≤ w) : ~~~ prefixMask w n = postfixMask w (w - n) := by
  apply BitVec.eq_of_getLsbD_eq
  intro i hi
  rw [BitVec.getLsbD_not, prefixMask_getLsbD h, postfixMask_getLsbD (by omega), Bool.eq_iff_iff]
  simp only [hi, decide_true, Bool.true_and, Bool.not_eq_true', decide_eq_false_iff_not,
    decide_eq_true_eq, and_true]
  omega

/-- Step 5 of DERIVE as arithmetic: the low `k` bits are zero exactly when `2^k` divides the number. -/
theorem hostBitsClear_iff {w k : Nat} (h : k ≤ w) (n : BitVec w) :
    hostBitsClear n (postfixMask w k) = true ↔ n.toNat % 2 ^ k = 0 := by
  rw [hostBitsClear, beq_iff_eq, ← BitVec.toNat_inj, BitVec.toNat_and, postfixMask_toNat h,
    Nat.and_two_pow_sub_one_eq_mod]
  rfl

/-- Step 6 of DERIVE as arithmetic, where step 5 has passed. -/
theorem isLastAddress_iff {w k : Nat} (h : k ≤ w) {n b : BitVec w} (hn : n.toNat % 2 ^ k = 0) :
    isLastAddress n b (postfixMask w k) = true ↔ b.toNat = n.toNat + (2 ^ k - 1) := by
  rw [isLastAddress, beq_iff_eq, ← BitVec.toNat_inj, BitVec.toNat_or, postfixMask_toNat h]
  have hlt : 2 ^ k - 1 < 2 ^ k := by have := Nat.two_pow_pos k; omega
  have hdvd : 2 ^ k * (n.toNat / 2 ^ k) = n.toNat := by
    have := Nat.div_add_mod n.toNat (2 ^ k); omega
  have := Nat.two_pow_add_eq_or_of_lt hlt (n.toNat / 2 ^ k)
  rw [hdvd] at this
  rw [this]

/-! ### DERIVE -/

/-- The derivation in one equation: the block, or none where the pair is not an aligned block of the size that the
common prefix gives (R140). -/
theorem deriveBlock_eq {w : Nat} (a b : BitVec w) :
    deriveBlock a b =
      if (toInteger a).toNat % 2 ^ (w - commonPrefixBits (toInteger a) (toInteger b)) = 0 ∧
          (toInteger b).toNat = (toInteger a).toNat +
            (2 ^ (w - commonPrefixBits (toInteger a) (toInteger b)) - 1)
      then some { network := a
                  prefixLength := commonPrefixBits (toInteger a) (toInteger b) }
      else none := by
  simp only [deriveBlock]
  by_cases hab : toInteger a = toInteger b
  · simp [sameAddress, hab, Nat.mod_one]
  · have hk : w - commonPrefixBits (toInteger a) (toInteger b) ≤ w := by omega
    rw [if_neg (by simpa [sameAddress] using hab), not_prefixMask (commonPrefixBits_le _ _)]
    by_cases h5 : (toInteger a).toNat %
        2 ^ (w - commonPrefixBits (toInteger a) (toInteger b)) = 0
    · have h6 := isLastAddress_iff hk (n := toInteger a) (b := toInteger b) h5
      rw [if_neg (by simp [(hostBitsClear_iff hk _).2 h5])]
      simp only [Bool.not_eq_true', Bool.eq_false_iff, ne_eq, h6, h5, true_and]
      exact ite_not _ _ _
    · rw [if_pos (by simpa using mt (hostBitsClear_iff hk _).1 h5), if_neg fun h => h5 h.1]

/-- A block is derived with the network Address as given, its prefix length lies in `[0, W]`, and its host bits are
zero (R11, R12, R148). -/
theorem deriveBlock_some {w : Nat} {a b : BitVec w} {blk : CidrBlock w}
    (h : deriveBlock a b = some blk) : blk.network = a ∧ blk.prefixLength ≤ w ∧
      (toInteger blk.network).toNat % 2 ^ (w - blk.prefixLength) = 0 := by
  rw [deriveBlock_eq] at h
  split at h
  · rename_i hc
    obtain rfl := Option.some.inj h
    exact ⟨rfl, commonPrefixBits_le _ _, hc.1⟩
  · exact absurd h (by simp)

/-! ### Packing and the end of a transaction -/

@[simp] theorem Status.code_ok : Status.ok.code = 0b00#2 := rfl
@[simp] theorem Status.code_errBoundary : Status.errBoundary.code = 0b01#2 := rfl
@[simp] theorem Status.code_faultPrecond : Status.faultPrecond.code = 0b10#2 := rfl
@[simp] theorem Status.code_faultIllegal : Status.faultIllegal.code = 0b11#2 := rfl

@[simp] theorem pack_ok (r : PortWord) (c : Count) :
    pack (.ok r c) = { status := 0b00#2, r := r, c := c } := rfl
@[simp] theorem pack_invalidNetworkBoundary :
    pack .invalidNetworkBoundary = { status := 0b01#2, r := 0, c := 0 } := rfl
@[simp] theorem pack_precond :
    pack (.fault .precond) = { status := 0b10#2, r := 0, c := 0 } := rfl
@[simp] theorem pack_illegal :
    pack (.fault .illegal) = { status := 0b11#2, r := 0, c := 0 } := rfl

@[simp] theorem deliver_ok (r : PortWord) (c : Count) (s : State) :
    deliver (.ok r c) s = .next (s.respond (pack (.ok r c))) := rfl
@[simp] theorem deliver_invalidNetworkBoundary (s : State) :
    deliver .invalidNetworkBoundary s = .next (s.respond (pack .invalidNetworkBoundary)) := rfl
@[simp] theorem deliver_fault (f : Fault) (s : State) : deliver (.fault f) s = .fault f := rfl

/-- Everything `deliver` can do when it goes on. -/
theorem deliver_eq_next {v : Verdict} {s t : State} :
    deliver v s = .next t ↔ t = s.respond (pack v) ∧ ∀ f, v ≠ .fault f := by
  cases v <;> simp [eq_comm]

/-- Everything `deliver` can do when it stops. -/
theorem deliver_eq_fault {v : Verdict} {s : State} {f : Fault} :
    deliver v s = .fault f ↔ v = .fault f := by
  cases v <;> simp

/-- A transaction is never refused. -/
theorem deliver_ne_refused {v : Verdict} {s : State} {r : Refusal} :
    deliver v s ≠ .refused r := by
  cases v <;> simp

/-- What the host may read of a response (R66). -/
@[simp] theorem Response.result_ok (r : PortWord) (c : Count) :
    Response.result { status := 0b00#2, r := r, c := c } = some (r, c) := rfl
theorem Response.result_eq_none {p : Response} : p.result = none ↔ p.status ≠ 0b00#2 := by
  unfold Response.result
  split <;> simp_all

theorem maskResult_eq {w : Nat} (n : Count) (mask : Nat → BitVec w) :
    maskResult n mask =
      if w < n.toNat then .fault .precond else .ok (zext128 (mask n.toNat)) 0 := rfl

theorem derive_eq {w : Nat} (a b : BitVec w) : derive a b = blockResult (deriveBlock a b) := rfl

@[simp] theorem blockResult_some {w : Nat} (blk : CidrBlock w) :
    blockResult (some blk) = .ok (zext128 blk.network) (BitVec.ofNat 8 blk.prefixLength) := rfl
@[simp] theorem blockResult_none {w : Nat} :
    blockResult (none : Option (CidrBlock w)) = .invalidNetworkBoundary := rfl

end Sys2Proof.Machine
end

