-- ==== Sys2Proof/Laws/Exec.lean ====
section
/-! SUPPORT. Each operation's meaning at both widths as one equation over the shared operations, and what a step is. -/

namespace Sys2Proof.Machine

/-- The outcome of an operation at a width, on a request. -/
def opOutcome (op : Op) (W : Width) (q : Request) : Verdict :=
  match op with
  | .toint => toint (lowW W.bits q.a)
  | .cpfx => cpfx (lowW W.bits q.a) (lowW W.bits q.b)
  | .cpost => cpost (lowW W.bits q.a) (lowW W.bits q.b)
  | .mpfx => mpfx W.bits q.n
  | .mpost => mpost W.bits q.n
  | .derive => derive (lowW W.bits q.a) (lowW W.bits q.b)

theorem exec_of (op : Op) (W : Width) (s : State) :
    exec (Instr.of op W) s = deliver (opOutcome op W s.req) s := by
  cases op <;> cases W <;> rfl

/-- Every instruction's meaning over its operation and width. -/
theorem exec_eq (i : Instr) (s : State) : exec i s = deliver (opOutcome i.op i.width s.req) s := by
  rw [← exec_of, Instr.of_op_width]

theorem step_of_instr {s : State} {i : Instr} (h : decode s.fetch.req.cmd = .instr i) :
    step s = exec i s.fetch := by
  simp [step, h]

theorem step_of_reserved {s : State} {why : ReservedReason}
    (h : decode s.fetch.req.cmd = .reserved why) : step s = .fault .illegal := by
  simp [step, h, raiseFault]

end Sys2Proof.Machine
end

