-- ==== Sys2Proof/Laws/PerInstr.lean ====
section
/-! SUPPORT. The per-instruction family `Encoding`: an instruction's command byte is legal, has the width and the operation
of the instruction in its fields, and is read as that instruction (spec/30_encoding.md R60 to R62, R67). -/

namespace Sys2Proof.Laws.Encoding

/-- What the encoding of one instruction is. -/
def Statement (i : Instr) : Prop :=
  legalCommand (encode i) = true ∧ decodeOp (opField (encode i)) = some i.op ∧
  decodeWidth (wselField (encode i)) = i.width ∧ decodeTableWord 8 (encode i).toNat = some i

theorem toint32 : Statement .toint32 := by unfold Statement; decide
theorem cpfx32 : Statement .cpfx32 := by unfold Statement; decide
theorem cpost32 : Statement .cpost32 := by unfold Statement; decide
theorem mpfx32 : Statement .mpfx32 := by unfold Statement; decide
theorem mpost32 : Statement .mpost32 := by unfold Statement; decide
theorem derive32 : Statement .derive32 := by unfold Statement; decide
theorem toint128 : Statement .toint128 := by unfold Statement; decide
theorem cpfx128 : Statement .cpfx128 := by unfold Statement; decide
theorem cpost128 : Statement .cpost128 := by unfold Statement; decide
theorem mpfx128 : Statement .mpfx128 := by unfold Statement; decide
theorem mpost128 : Statement .mpost128 := by unfold Statement; decide
theorem derive128 : Statement .derive128 := by unfold Statement; decide

end Sys2Proof.Laws.Encoding
end

