-- ==== Sys2Proof/Laws/Run.lean ====
section
/-! SUPPORT. Runs of the machine, one step at a time. The states are typed as the core's, which is what a run is
written over. -/

namespace Sys2Proof

theorem core_run_zero (s : core.State) : core.run 0 s = .next s := rfl

theorem core_run_of_next {s t : core.State} {k : Nat} (h : core.step s = .next t) :
    core.run (k + 1) s = core.run k t := by
  simp only [Host.Core.run, h]

theorem core_run_of_fault {s : core.State} {f : core.Fault} {k : Nat}
    (h : core.step s = .fault f) : core.run (k + 1) s = .fault f := by
  simp only [Host.Core.run, h]

end Sys2Proof
end

