-- ==== Sys2Proof/Laws/State.lean ====
section
/-! SUPPORT. One lemma per field of the state and update of it. -/

namespace Sys2Proof.Machine

@[simp] theorem State.respond_rsp (p : Response) (s : State) : (s.respond p).rsp = p := rfl
@[simp] theorem State.respond_req (p : Response) (s : State) : (s.respond p).req = s.req := rfl
@[simp] theorem State.respond_pending (p : Response) (s : State) :
    (s.respond p).pending = s.pending := rfl

@[simp] theorem State.present_req (q : Request) (s : State) : (s.present q).req = q := rfl
@[simp] theorem State.present_rsp (q : Request) (s : State) : (s.present q).rsp = s.rsp := rfl
@[simp] theorem State.present_pending (q : Request) (s : State) :
    (s.present q).pending = s.pending := rfl

@[simp] theorem State.fetch_rsp (s : State) : s.fetch.rsp = s.rsp := by
  unfold State.fetch; split <;> rfl
theorem State.fetch_of_nil {s : State} (h : s.pending = []) : s.fetch = s := by
  simp [State.fetch, h]
theorem State.fetch_of_cons {s : State} {q : Request} {qs : List Request}
    (h : s.pending = q :: qs) : s.fetch = { s with req := q, pending := qs } := by
  simp [State.fetch, State.present, h]

@[simp] theorem State.withFetchWord_cmd (s : State) (nbits w : Nat) :
    (s.withFetchWord nbits w).req.cmd = commandOfTableWord nbits w := rfl
@[simp] theorem State.withFetchWord_a (s : State) (nbits w : Nat) :
    (s.withFetchWord nbits w).req.a = s.req.a := rfl
@[simp] theorem State.withFetchWord_b (s : State) (nbits w : Nat) :
    (s.withFetchWord nbits w).req.b = s.req.b := rfl
@[simp] theorem State.withFetchWord_n (s : State) (nbits w : Nat) :
    (s.withFetchWord nbits w).req.n = s.req.n := rfl
@[simp] theorem State.withFetchWord_rsp (s : State) (nbits w : Nat) :
    (s.withFetchWord nbits w).rsp = s.rsp := rfl
@[simp] theorem State.withFetchWord_pending (s : State) (nbits w : Nat) :
    (s.withFetchWord nbits w).pending = [] := rfl

/-- The next transaction runs on exactly the state with the table word on port `CMD`. -/
@[simp] theorem State.withFetchWord_fetch (s : State) (nbits w : Nat) :
    (s.withFetchWord nbits w).fetch = s.withFetchWord nbits w := rfl

end Sys2Proof.Machine
end

