-- ==== Sys2Proof/Laws/Transaction.lean ====
section
/-! SUPPORT. What `F` answers, by the decoder's verdict on the command byte, and the ports after a transaction. -/

namespace Sys2Proof.Machine

theorem outcomeAtWidth_of_op {op : BitVec 3} {o : Op} (h : decodeOp op = some o) (W : Width)
    (q : Request) : outcomeAtWidth W.bits op q = opOutcome o W q := by
  rcases decodeOp_cases op with ⟨rfl, h'⟩ | ⟨rfl, h'⟩ | ⟨rfl, h'⟩ | ⟨rfl, h'⟩ | ⟨rfl, h'⟩ |
    ⟨rfl, h'⟩ | ⟨_, h'⟩ <;> rw [h] at h' <;> cases h' <;> rfl

theorem outcomeAtWidth_of_none {op : BitVec 3} (h : decodeOp op = none) (w : Nat)
    (q : Request) : outcomeAtWidth w op q = .fault .illegal := by
  rcases decodeOp_cases op with ⟨rfl, h'⟩ | ⟨rfl, h'⟩ | ⟨rfl, h'⟩ | ⟨rfl, h'⟩ | ⟨rfl, h'⟩ |
    ⟨rfl, h'⟩ | ⟨rfl | rfl, h'⟩ <;> first | rfl | (rw [h] at h'; cases h')

@[simp] theorem portStep_rsp (s : State) : (portStep s).rsp = portResponse s.fetch.req := rfl
@[simp] theorem portStep_req (s : State) : (portStep s).req = s.fetch.req := rfl
@[simp] theorem portStep_pending (s : State) : (portStep s).pending = s.fetch.pending := rfl

end Sys2Proof.Machine
end

