-- ==== Sys2Proof/Tests/Slice0.lean ====
section
/-! SUPPORT. Tests of the model on small requests, their expected results taken from spec/95_test_vectors.md (the
section is named at each), the smoke test of WellFormed.lean, and the witnesses that meet the hypotheses of the
obligations. -/

namespace Sys2Proof.Tests

open Sys2Proof.Machine

/-- A state with one request on the ports and nothing pending. -/
def at' (cmd : CommandByte) (a b : PortWord) (n : Count) : State :=
  { req := { cmd := cmd, a := a, b := b, n := n }
    rsp := { status := 0b11#2, r := 7, c := 9 }, pending := [] }

/-- The response of a step that goes on. -/
def response (o : Host.Outcome State Fault Refusal) : Option Response :=
  match o with
  | .next t => some t.rsp
  | _ => none

/-- The fault of a step that stops. -/
def faultOf (o : Host.Outcome State Fault Refusal) : Option Fault :=
  match o with
  | .fault f => some f
  | _ => none

theorem next_of_response {o : Host.Outcome State Fault Refusal} {p : Response}
    (h : response o = some p) : ∃ t, o = .next t ∧ t.rsp = p := by
  cases o <;> simp_all [response]

/-! ### Decoding: words written out from the encoding `0000wooo` (R60 to R62) -/

theorem test_decode_toint :
    decode 0b00000000#8 = .instr .toint32 ∧ decode 0b00001000#8 = .instr .toint128 := by decide
theorem test_decode_cpfx :
    decode 0b00000001#8 = .instr .cpfx32 ∧ decode 0b00001001#8 = .instr .cpfx128 := by decide
theorem test_decode_cpost :
    decode 0b00000010#8 = .instr .cpost32 ∧ decode 0b00001010#8 = .instr .cpost128 := by decide
theorem test_decode_mpfx :
    decode 0b00000011#8 = .instr .mpfx32 ∧ decode 0b00001011#8 = .instr .mpfx128 := by decide
theorem test_decode_mpost :
    decode 0b00000100#8 = .instr .mpost32 ∧ decode 0b00001100#8 = .instr .mpost128 := by decide
theorem test_decode_derive :
    decode 0b00000101#8 = .instr .derive32 ∧ decode 0b00001101#8 = .instr .derive128 := by decide
/-- 95 section 2.6: neither a reserved operation nor a high bit aliases onto a legal command. -/
theorem test_decode_reserved :
    decode 0b00000110#8 = .reserved .opReserved ∧ decode 0b00001111#8 = .reserved .opReserved ∧
    decode 0b00010000#8 = .reserved .rsvNotZero ∧ decode 0b10000101#8 = .reserved .rsvNotZero := by
  decide
theorem test_decodeTableWord :
    decodeTableWord 8 0x0D = some .derive128 ∧ decodeTableWord 8 0x07 = none := by decide

/-! ### WellFormed: one ill-formed term for each check, and a well-formed one -/

theorem test_wellFormed_refuses_reserved_field :
    (Request.mk 0x10#8 0 0 0).wellFormed = false := by decide
theorem test_wellFormed_refuses_reserved_op :
    (Request.mk 0x06#8 0 0 0).wellFormed = false := by decide
theorem test_wellFormed_refuses_count_above_width :
    (Request.mk 0x03#8 0 0 33#8).wellFormed = false ∧
    (Request.mk 0x0C#8 0 0 129#8).wellFormed = false := by decide
theorem test_wellFormed_accepts :
    (Request.mk 0x03#8 0 0 32#8).wellFormed = true ∧
    (Request.mk 0x0B#8 0 0 33#8).wellFormed = true ∧
    (Request.mk 0x05#8 0 0 200#8).wellFormed = true := by decide

/-! ### TOINT (95 section 2.1, program 4) -/

/-- Upper 96 bits of `A` ignored and `R[127:32] = 0`. -/
theorem test_toint32_ignores_upper_bits :
    response (step (at' 0x00#8 0xDEADBEEFCAFEF00D0123456704030201 0 0)) =
      some { status := 0b00#2, r := 0x01020304, c := 0 } := by decide
theorem test_toint32_first_octet_is_highest :
    response (step (at' 0x00#8 0xFF00A8C0 0 0)) =
      some { status := 0b00#2, r := 0xC0A800FF, c := 0 } := by decide
theorem test_toint128_reverses_octets :
    response (step (at' 0x08#8 0x08000700060005000400030002000100 0 0)) =
      some { status := 0b00#2, r := 0x00010002000300040005000600070008, c := 0 } := by decide
theorem test_toint128_program4 :
    response (step (at' 0x08#8 0xAAAAAAAAAAAAAAAAAAAAAAAA0100007F 0 0)) =
      some { status := 0b00#2, r := 0x7F000001AAAAAAAAAAAAAAAAAAAAAAAA, c := 0 } := by decide

/-! ### CPFX and CPOST (95 section 2.2) -/

theorem test_cpfx32_program4 :
    response (step (at' 0x01#8 0xAAAAAAAAAAAAAAAAAAAAAAAAC0A80000
      0x555555555555555555555555C0A800FF 0)) =
      some { status := 0b00#2, r := 0, c := 24#8 } := by decide
theorem test_cpfx32_equal :
    response (step (at' 0x01#8 5 5 200#8)) =
      some { status := 0b00#2, r := 0, c := 32#8 } := by decide
theorem test_cpfx128_bit63 :
    response (step (at' 0x09#8 0x00000000000000008000000000000000 0 0)) =
      some { status := 0b00#2, r := 0, c := 64#8 } := by decide +kernel
theorem test_cpfx128_equal :
    response (step (at' 0x09#8 7 7 0)) =
      some { status := 0b00#2, r := 0, c := 128#8 } := by decide +kernel
theorem test_cpost32_three :
    response (step (at' 0x02#8 0x12345678 0x12345600 0)) =
      some { status := 0b00#2, r := 0, c := 3#8 } := by decide
theorem test_cpost32_ignores_upper_bits :
    response (step (at' 0x02#8 0xFFFFFFFFFFFFFFFFFFFFFFFFC0A80000 0xC0A80000 0)) =
      some { status := 0b00#2, r := 0, c := 32#8 } := by decide
theorem test_cpost128_bit64 :
    response (step (at' 0x0A#8 0x00000000000000010000000000000000 0 0)) =
      some { status := 0b00#2, r := 0, c := 64#8 } := by decide +kernel
theorem test_cpost128_top_bit :
    response (step (at' 0x0A#8 0x80000000000000000000000000000000 0 0)) =
      some { status := 0b00#2, r := 0, c := 127#8 } := by decide +kernel

/-! ### MPFX and MPOST (95 section 2.3) -/

theorem test_mpfx32_24 :
    response (step (at' 0x03#8 0xFFFF 0xFF 24#8)) =
      some { status := 0b00#2, r := 0xFFFFFF00, c := 0 } := by decide
/-- 64 would alias to 0 if only the low bits of `N` were used. -/
theorem test_mpfx32_faults :
    faultOf (step (at' 0x03#8 0 0 33#8)) = some .precond ∧
    faultOf (step (at' 0x03#8 0 0 64#8)) = some .precond ∧
    response (step (at' 0x03#8 0 0 33#8)) = none := by decide
theorem test_mpfx128_33 :
    response (step (at' 0x0B#8 0 0 33#8)) =
      some { status := 0b00#2, r := 0xFFFFFFFF800000000000000000000000, c := 0 } := by decide
theorem test_mpfx128_ends :
    response (step (at' 0x0B#8 0 0 0)) = some { status := 0b00#2, r := 0, c := 0 } ∧
    response (step (at' 0x0B#8 0 0 128#8)) =
      some { status := 0b00#2, r := 0xFFFFFFFFFFFFFFFFFFFFFFFFFFFFFFFF, c := 0 } ∧
    faultOf (step (at' 0x0B#8 0 0 129#8)) = some .precond := by decide
theorem test_mpost32_ends :
    response (step (at' 0x04#8 0 0 32#8)) =
      some { status := 0b00#2, r := 0xFFFFFFFF, c := 0 } ∧
    faultOf (step (at' 0x04#8 0 0 33#8)) = some .precond := by decide
theorem test_mpost32_8 :
    response (step (at' 0x04#8 0 0 8#8)) =
      some { status := 0b00#2, r := 0x000000FF, c := 0 } := by decide
theorem test_mpost128_65 :
    response (step (at' 0x0C#8 0 0 65#8)) =
      some { status := 0b00#2, r := 0x0000000000000001FFFFFFFFFFFFFFFF, c := 0 } := by decide
theorem test_mpost128_ends :
    response (step (at' 0x0C#8 0 0 128#8)) =
      some { status := 0b00#2, r := 0xFFFFFFFFFFFFFFFFFFFFFFFFFFFFFFFF, c := 0 } ∧
    faultOf (step (at' 0x0C#8 0 0 129#8)) = some .precond := by decide

/-! ### DERIVE (95 sections 1, 2.5) -/

/-- S1 with the upper bits of `A` set: the block `192.168.0.0/24`, upper bits not copied. -/
theorem test_derive32_s1 :
    response (step (at' 0x05#8 0x1111111122222222333333330000A8C0 0xFF00A8C0 0)) =
      some { status := 0b00#2, r := 0x0000A8C0, c := 24#8 } := by decide
/-- Step 6 fails for `192.168.0.254`; step 5 fails for S4 and S5. -/
theorem test_derive32_errors :
    response (step (at' 0x05#8 0x0000A8C0 0xFE00A8C0 0)) =
      some { status := 0b01#2, r := 0, c := 0 } ∧
    response (step (at' 0x05#8 0x0200007F 0x0100007F 0)) =
      some { status := 0b01#2, r := 0, c := 0 } ∧
    response (step (at' 0x05#8 0x0500000A 0xFA00000A 0)) =
      some { status := 0b01#2, r := 0, c := 0 } := by decide
/-- `2001::` to `2001::ffff:ffff:ffff:ffff` is `/64`. -/
theorem test_derive128_64 :
    response (step (at' 0x0D#8 0x00000000000000000000000000000120
      0xFFFFFFFFFFFFFFFF0000000000000120 0)) =
      some { status := 0b00#2, r := 0x120, c := 64#8 } := by decide +kernel
/-- S6, a single host, and a pair that fails at step 6. -/
theorem test_derive128_others :
    response (step (at' 0x0D#8 0x000000000000000000000000B80D0120
      0x010000000000000000000000B80D0120 0)) =
      some { status := 0b00#2, r := 0x000000000000000000000000B80D0120, c := 127#8 } ∧
    response (step (at' 0x0D#8 0x01000000000000000000000000000000
      0x01000000000000000000000000000000 0)) =
      some { status := 0b00#2, r := 0x01000000000000000000000000000000, c := 128#8 } ∧
    response (step (at' 0x0D#8 0x00000000000000000000000000000120
      0xFEFFFFFFFFFFFFFF0000000000000120 0)) =
      some { status := 0b01#2, r := 0, c := 0 } := by decide +kernel

/-! ### Reserved commands and ports (95 section 2.6, program 3) -/

theorem test_reserved_faults :
    faultOf (step (at' 0x06#8 0xFFFFFFFF 0 1#8)) = some .illegal ∧
    faultOf (step (at' 0x85#8 0x0100007F 0x0100007F 0)) = some .illegal ∧
    faultOf (step (at' 0x13#8 0 0 33#8)) = some .illegal := by decide
theorem test_ports_show_faults :
    (portStep (at' 0x03#8 0 0 33#8)).rsp = { status := 0b10#2, r := 0, c := 0 } ∧
    (portStep (at' 0x06#8 0xFFFFFFFF 0 1#8)).rsp = { status := 0b11#2, r := 0, c := 0 } := by decide
theorem test_withFetchWord_runs_the_word :
    response (step (State.reset.withFetchWord 8 0x01)) =
      some { status := 0b00#2, r := 0, c := 32#8 } := by decide
/-- The host's next request is answered, not the one that stands on the ports. -/
theorem test_pending_request_is_presented :
    response (step { at' 0x06#8 0 0 0 with pending := [Request.mk 0x04#8 0 0 24#8] }) =
      some { status := 0b00#2, r := 0x00FFFFFF, c := 0 } := by decide
/-- R43: eight 16-bit words, the first one most significant (`1:2:3:4:5:6:7:8`). -/
theorem test_octets_of_words :
    lanesOfOctets 128 (octetsOfWords [1, 2, 3, 4, 5, 6, 7, 8]) =
      0x08000700060005000400030002000100#128 := by decide

/-! ### Witnesses: states and operands that meet the hypotheses of the obligations -/

theorem witness_WidthComesFromWselAlone :
    decode 0x05#8 = .instr .derive32 ∧ (0x05#8 : CommandByte).getLsbD 3 = false ∧
    decode 0x0D#8 = .instr .derive128 ∧ (0x0D#8 : CommandByte).getLsbD 3 = true := by decide

theorem witness_DecodeFollowsTheCommandMap_reserved :
    (0x0F#8 : CommandByte) = 0x0F#8 ∧ 0x10 ≤ (0x10#8 : CommandByte).toNat ∧
    0x10 ≤ (0xFF#8 : CommandByte).toNat := by decide

theorem witness_StepRunsTheDecodedInstruction :
    decode (at' 0x0D#8 0 0 0).fetch.req.cmd = .instr .derive128 ∧ (at' 0x0D#8 0 0 0).pending = [] ∧
    ({ at' 0x0D#8 0 0 0 with pending := [Request.mk 0x04#8 0 0 24#8] } : State).pending =
      Request.mk 0x04#8 0 0 24#8 :: [] := by decide

/-- Both clauses, at the boundaries of the legal ranges. -/
theorem witness_ReservedCommandsFault :
    (∀ cmd ∈ [0x00#8, 0x05#8, 0x08#8, 0x0D#8],
      (at' cmd 0 0 0).fetch.req.cmd.extractLsb' 4 4 = 0#4 ∧
      ((at' cmd 0 0 0).fetch.req.cmd.extractLsb' 0 3).toNat ≤ 5) ∧
    (∀ cmd ∈ [0x06#8, 0x07#8, 0x0E#8, 0x0F#8, 0x10#8, 0xFF#8],
      ¬ ((at' cmd 0 0 0).fetch.req.cmd.extractLsb' 4 4 = 0#4 ∧
        ((at' cmd 0 0 0).fetch.req.cmd.extractLsb' 0 3).toNat ≤ 5)) := by decide

theorem witness_TointPacksOctetsBigEndian :
    (at' 0x00#8 (0xFFFFFFFF00000000 : PortWord) 0 0).req.a.setWidth Width.w32.bits = 0 ∧
    (at' 0x00#8 (0xFFFFFFFF : PortWord) 0 0).req.a.setWidth Width.w32.bits =
      BitVec.allOnes Width.w32.bits := by decide

theorem witness_CountsAreSymmetric : Op.cpfx = .cpfx ∨ Op.cpfx = .cpost := by decide

/-- Masks: `n = 0`, `n = W`, `n = W + 1`, at both widths. -/
theorem witness_MaskClauses :
    (at' 0x03#8 0 0 0).req.n.toNat < Width.w32.bits ∧
    (at' 0x03#8 0 0 32#8).req.n.toNat ≤ Width.w32.bits ∧
    Width.w32.bits < (at' 0x03#8 0 0 33#8).req.n.toNat ∧
    (at' 0x0B#8 0 0 128#8).req.n.toNat ≤ Width.w128.bits ∧
    Width.w128.bits < (at' 0x0B#8 0 0 129#8).req.n.toNat := by decide

theorem witness_MasksPartitionTheWidth :
    0 ≤ Width.w32.bits ∧ 32 ≤ Width.w32.bits ∧ 128 ≤ Width.w128.bits := by decide

theorem witness_MaskPreconditionFaults :
    step (at' 0x03#8 0 0 33#8) = .fault .precond := rfl

theorem witness_ZeroCountsInClosedForm : (1 : BitVec Width.w32.bits) ≠ 0 := by decide

theorem witness_CountsLieWithinTheWidth :
    decode (at' 0x01#8 5 5 0).fetch.req.cmd = .instr .cpfx32 ∧
    (∃ t, step (at' 0x01#8 5 5 0) = .next t ∧ t.rsp.status = 0b00#2) ∧
    decode (at' 0x0B#8 0 0 128#8).fetch.req.cmd = .instr .mpfx128 ∧
    (∃ t, step (at' 0x0B#8 0 0 128#8) = .next t ∧ t.rsp.status = 0b00#2) := by
  obtain ⟨t, h, e⟩ := next_of_response test_cpfx32_equal
  obtain ⟨u, h', e'⟩ := next_of_response test_mpfx128_ends.2.1
  exact ⟨by decide, ⟨_, rfl, rfl⟩, by decide, ⟨u, h', by rw [e']⟩⟩

theorem witness_AddressLanesAndIntegerEncoding :
    [0xC0#8, 0xA8#8, 0x00#8, 0xFF#8].length = Width.w32.octets := by decide

theorem witness_WordsOfAnAddress : ([1, 2, 3, 4, 5, 6, 7, 8] : List (BitVec 16)).length = 8 := by
  decide

/-- DERIVE: equal addresses; step 5 fails; step 6 fails; both pass. -/
theorem witness_DeriveFollowsItsSteps :
    (networkInt .w32 (at' 0x05#8 1 1 0) = broadcastInt .w32 (at' 0x05#8 1 1 0)) ∧
    (networkInt .w32 (at' 0x05#8 0x0500000A 0xFA00000A 0) ≠
      broadcastInt .w32 (at' 0x05#8 0x0500000A 0xFA00000A 0) ∧
      (networkInt .w32 (at' 0x05#8 0x0500000A 0xFA00000A 0)).toNat % 2 ^ (32 - 24) ≠ 0) ∧
    ((networkInt .w32 (at' 0x05#8 0x0000A8C0 0xFE00A8C0 0)).toNat % 2 ^ (32 - 24) = 0 ∧
      (broadcastInt .w32 (at' 0x05#8 0x0000A8C0 0xFE00A8C0 0)).toNat ≠
        (networkInt .w32 (at' 0x05#8 0x0000A8C0 0xFE00A8C0 0)).toNat + (2 ^ (32 - 24) - 1)) ∧
    ((networkInt .w32 (at' 0x05#8 0x0000A8C0 0xFF00A8C0 0)).toNat % 2 ^ (32 - 24) = 0 ∧
      (broadcastInt .w32 (at' 0x05#8 0x0000A8C0 0xFF00A8C0 0)).toNat =
        (networkInt .w32 (at' 0x05#8 0x0000A8C0 0xFF00A8C0 0)).toNat + (2 ^ (32 - 24) - 1)) := by
  decide

/-- Aligned blocks at `k = 0` and `k = W`, and a pair that is no block for any `k`. -/
theorem witness_DeriveAcceptsExactlyAlignedBlocks :
    (2 ^ 0 ∣ (networkInt .w32 (at' 0x05#8 1 1 0)).toNat ∧
      (broadcastInt .w32 (at' 0x05#8 1 1 0)).toNat =
        (networkInt .w32 (at' 0x05#8 1 1 0)).toNat + 2 ^ 0 - 1) ∧
    (2 ^ 32 ∣ (networkInt .w32 (at' 0x05#8 0 0xFFFFFFFF 0)).toNat ∧
      (broadcastInt .w32 (at' 0x05#8 0 0xFFFFFFFF 0)).toNat =
        (networkInt .w32 (at' 0x05#8 0 0xFFFFFFFF 0)).toNat + 2 ^ 32 - 1) ∧
    (∀ k < 33, ¬ (2 ^ k ∣ (networkInt .w32 (at' 0x05#8 0x0200007F 0x0100007F 0)).toNat ∧
      (broadcastInt .w32 (at' 0x05#8 0x0200007F 0x0100007F 0)).toNat =
        (networkInt .w32 (at' 0x05#8 0x0200007F 0x0100007F 0)).toNat + 2 ^ k - 1)) := by
  decide

theorem witness_AdjacentAddresses :
    (broadcastInt .w32 (at' 0x05#8 0x0000000A 0x0100000A 0) =
        networkInt .w32 (at' 0x05#8 0x0000000A 0x0100000A 0) ^^^ 1 ∧
      (networkInt .w32 (at' 0x05#8 0x0000000A 0x0100000A 0)).getLsbD 0 = false) ∧
    (broadcastInt .w32 (at' 0x05#8 0x0100000A 0x0000000A 0) =
        networkInt .w32 (at' 0x05#8 0x0100000A 0x0000000A 0) ^^^ 1 ∧
      (networkInt .w32 (at' 0x05#8 0x0100000A 0x0000000A 0)).getLsbD 0 = true) := by decide

/-- The whole space, as a successful derivation with `C = 0` (95 S7). -/
theorem witness_PrefixLengthZero :
    (networkInt .w32 (at' 0x05#8 0 0xFFFFFFFF 0) = 0 ∧
      broadcastInt .w32 (at' 0x05#8 0 0xFFFFFFFF 0) = BitVec.allOnes Width.w32.bits) ∧
    ∃ t, exec (Instr.of .derive .w32) (at' 0x05#8 0 0xFFFFFFFF 0) = .next t ∧
      t.rsp = { status := 0b00#2, r := 0, c := 0 } :=
  ⟨by decide, next_of_response (by decide)⟩

/-- A successful derivation, for the statements about one: `192.168.0.0/24`, of different addresses, and a single
host, of equal ones. -/
theorem witness_SuccessfulDerivation :
    (∃ t, exec (Instr.of .derive .w32) (at' 0x05#8 0x0000A8C0 0xFF00A8C0 0) = .next t ∧
      t.rsp = { status := 0b00#2, r := 0x0000A8C0, c := 24#8 }) ∧
    (at' 0x05#8 0x0000A8C0 0xFF00A8C0 0).req.a.setWidth Width.w32.bits ≠
      (at' 0x05#8 0x0000A8C0 0xFF00A8C0 0).req.b.setWidth Width.w32.bits ∧
    (∃ t, exec (Instr.of .derive .w32) (at' 0x05#8 0x0100007F 0x0100007F 0) = .next t ∧
      t.rsp = { status := 0b00#2, r := 0x0100007F, c := 32#8 }) :=
  ⟨next_of_response (by decide), by decide, next_of_response (by decide)⟩

theorem witness_SwappedAddresses :
    (broadcastInt .w32 (at' 0x05#8 0x0200007F 0x0100007F 0)).toNat <
      (networkInt .w32 (at' 0x05#8 0x0200007F 0x0100007F 0)).toNat := by decide

/-- Statuses: a result, the error value, and a mask's fault. -/
theorem witness_StatusesPerOperation :
    (∃ t, exec .derive32 (at' 0x05#8 0x0200007F 0x0100007F 0) = .next t ∧
      t.rsp = { status := 0b01#2, r := 0, c := 0 }) ∧
    exec .mpost128 (at' 0x0C#8 0 0 129#8) = .fault .precond :=
  ⟨next_of_response (by decide), rfl⟩

theorem witness_NoResultMeansZeroPorts :
    (portResponse (Request.mk 0x03#8 0 0 33#8)).status ≠ 0b00#2 ∧
    ∃ t, step (at' 0x05#8 0x0200007F 0x0100007F 0) = .next t ∧ t.rsp.status ≠ 0b00#2 := by
  obtain ⟨t, h, e⟩ := next_of_response test_derive32_errors.2.1
  exact ⟨by decide, t, h, by rw [e]; decide⟩

theorem witness_PortsShowEveryOutcome :
    (∃ t, step State.reset = .next t) ∧ step (at' 0x03#8 0 0 33#8) = .fault .precond ∧
    step (at' 0x06#8 0 0 0) = .fault .illegal :=
  ⟨⟨_, rfl⟩, rfl, rfl⟩

/-- Requests that differ only in what the operation does not read. -/
theorem witness_IgnoredPorts :
    SameOperands .toint .w32 (Request.mk 0x00#8 0xFF00000001 1 1) (Request.mk 0x00#8 1 0 0) ∧
    SameOperands .cpfx .w32 (Request.mk 0x01#8 0xFF00000001 2 1) (Request.mk 0x01#8 1 2 0) ∧
    SameOperands .mpfx .w128 (Request.mk 0x0B#8 1 2 64) (Request.mk 0x0B#8 3 4 64) :=
  ⟨by unfold SameOperands; decide, by unfold SameOperands; decide, by unfold SameOperands; decide⟩

theorem witness_ResponseDependsOnItsRequestAlone :
    (at' 0x00#8 0 0 0).fetch.req = State.reset.fetch.req ∧
    (at' 0x00#8 0 0 0).rsp ≠ State.reset.rsp := by decide

theorem witness_RepeatedRequest :
    ∃ t, step State.reset = .next t ∧ t.pending = [] := ⟨_, rfl, rfl⟩

theorem witness_WellFormedRequests :
    State.reset.fetch.req.wellFormed = true ∧ (at' 0x06#8 0 0 0).fetch.req.wellFormed = false := by
  decide

theorem witness_SafePrograms :
    SafeProgram { at' 0x06#8 0 0 0 with
      pending := [Request.mk 0x03#8 0 0 32#8, Request.mk 0x0D#8 1 2 200#8] } :=
  ⟨by decide, by decide⟩

theorem witness_ProgramResponses :
    (∀ q ∈ [Request.mk 0x03#8 0 0 32#8, Request.mk 0x0D#8 1 2 200#8], q.wellFormed = true) ∧
    [Request.mk 0x03#8 0 0 32#8, Request.mk 0x0D#8 1 2 200#8][1]? =
      some (Request.mk 0x0D#8 1 2 200#8) := by decide

/-- A state that meets the premises of the invariants, with the response of its request on the ports, and whose step
goes on. -/
theorem witness_Invariants :
    ∃ s : State, s = { at' 0x01#8 5 5 0 with rsp := { status := 0b00#2, r := 0, c := 32#8 } } ∧
      Settled s ∧ PortsLegal s ∧ ∃ t, step s = .next t := by
  refine ⟨_, rfl, by unfold Settled; decide, ⟨.cpfx32, by decide, ?_⟩, ⟨_, rfl⟩⟩
  exact
    { status := .inl rfl
      zeroWithoutResult := fun h => absurd rfl h
      vectorWidth := fun j _ => by simp
      countRange := by decide
      noCount := fun h => absurd h (by decide)
      noVector := fun _ => rfl
      networkAsGiven := fun h => absurd h (by decide)
      hostBitsZero := fun h => absurd h (by decide) }

end Sys2Proof.Tests
end

/-! SUPPORT. The zero counts in closed form at every width, and the proof of O16 from them (R8). -/

namespace Sys2Proof.Machine

/-! ### The leading-zero count -/

theorem leadingZeros_eq_width {w : Nat} {x : BitVec w} : leadingZeros x = w ↔ x = 0 := by
  simpa [commonPrefixBits] using commonPrefixBits_eq_width (a := x) (b := 0)

theorem leadingZeros_lt_width {w : Nat} {x : BitVec w} (hx : x ≠ 0) : leadingZeros x < w :=
  Nat.lt_of_le_of_ne (leadingZeros_spec x).1 (mt leadingZeros_eq_width.1 hx)

@[simp] theorem leadingZeros_allOnes (w : Nat) : leadingZeros (BitVec.allOnes w) = 0 :=
  leadingZeros_unique (Nat.zero_le w) (by simp) fun h => by simp [h]

/-- The highest one of a nonzero value is the first bit after its leading zeros (R8). -/
theorem log2_toNat {w : Nat} {x : BitVec w} (hx : x ≠ 0) :
    x.toNat.log2 = w - 1 - leadingZeros x := by
  have hlt := leadingZeros_lt_width hx
  obtain ⟨-, hzeros, hone⟩ := leadingZeros_spec x
  have hne : x.toNat ≠ 0 := fun h => hx (BitVec.eq_of_toNat_eq h)
  refine (Nat.log2_eq_iff hne).2 ⟨?_, ?_⟩
  · exact Nat.ge_two_pow_of_testBit (by rw [BitVec.testBit_toNat]; exact hone hlt)
  · refine Nat.lt_pow_two_of_testBit _ fun i hi => ?_
    rw [BitVec.testBit_toNat]
    by_cases hiw : i < w
    · have := hzeros (w - 1 - i) (by omega)
      rwa [show w - 1 - (w - 1 - i) = i by omega] at this
    · exact BitVec.getLsbD_of_ge x i (by omega)

theorem leadingZeros_eq_sub_log2 {w : Nat} {x : BitVec w} (hx : x ≠ 0) :
    leadingZeros x = w - 1 - x.toNat.log2 := by
  have hlt := leadingZeros_lt_width hx
  rw [log2_toNat hx]
  omega

/-! ### The trailing-zero count -/

theorem trailingZeros_eq_width {w : Nat} {x : BitVec w} : trailingZeros x = w ↔ x = 0 := by
  simpa [commonPostfixBits] using commonPostfixBits_eq_width (a := x) (b := 0)

theorem trailingZeros_lt_width {w : Nat} {x : BitVec w} (hx : x ≠ 0) : trailingZeros x < w :=
  Nat.lt_of_le_of_ne (trailingZeros_spec x).1 (mt trailingZeros_eq_width.1 hx)

@[simp] theorem trailingZeros_allOnes (w : Nat) : trailingZeros (BitVec.allOnes w) = 0 :=
  trailingZeros_unique (Nat.zero_le w) (by simp) fun h => by simp [h]

/-- Divisibility by a power of two, read off the low bits. -/
theorem two_pow_dvd_toNat_iff {w : Nat} (x : BitVec w) (k : Nat) :
    2 ^ k ∣ x.toNat ↔ ∀ j < k, x.getLsbD j = false := by
  rw [Nat.dvd_iff_mod_eq_zero]
  constructor
  · intro h j hj
    have : (x.toNat % 2 ^ k).testBit j = false := by rw [h, Nat.zero_testBit]
    simpa [Nat.testBit_mod_two_pow, BitVec.testBit_toNat, hj] using this
  · intro h
    refine Nat.eq_of_testBit_eq fun j => ?_
    simpa [Nat.testBit_mod_two_pow, BitVec.testBit_toNat] using h j

/-- The powers of two that divide a nonzero value are those up to its trailing-zero count (R8). -/
theorem two_pow_dvd_toNat_iff_le_trailingZeros {w : Nat} {x : BitVec w} (hx : x ≠ 0) (k : Nat) :
    2 ^ k ∣ x.toNat ↔ k ≤ trailingZeros x := by
  obtain ⟨-, hzeros, hone⟩ := trailingZeros_spec x
  rw [two_pow_dvd_toNat_iff]
  constructor
  · intro h
    by_contra hk
    have hlow := h (trailingZeros x) (by omega)
    rw [hone (trailingZeros_lt_width hx)] at hlow
    exact absurd hlow (by decide)
  · exact fun h j hj => hzeros j (by omega)

/-- Settles O16: both closed forms hold at every width, so at the two of the block. -/
theorem zeroCountsInClosedForm : Obligations.ZeroCountsInClosedForm := by
  unfold Obligations.ZeroCountsInClosedForm
  intro W x
  exact ⟨(leadingZeros_spec x).1, (trailingZeros_spec x).1, leadingZeros_eq_sub_log2,
    fun hx => ⟨(two_pow_dvd_toNat_iff_le_trailingZeros hx _).2 le_rfl,
      fun k => (two_pow_dvd_toNat_iff_le_trailingZeros hx k).1⟩,
    leadingZeros_eq_width.2 rfl, trailingZeros_eq_width.2 rfl,
    leadingZeros_allOnes _, trailingZeros_allOnes _⟩

end Sys2Proof.Machine

/-! SUPPORT. A step as the spec's function `F` (R70), what a step that goes on leaves on the ports, and the proofs of O36,
O38, O43 and O45 from them (R20, R29, R31). -/

namespace Sys2Proof.Machine

/-! ### `F` by the decoder's verdict -/

theorem requestOutcome_of_instr {q : Request} {i : Instr} (h : decode q.cmd = .instr i) :
    requestOutcome q = opOutcome i.op i.width q := by
  rcases decode_cases q.cmd with ⟨_, hd⟩ | ⟨_, _, hd⟩ | ⟨op, hrsv, hop, hd⟩
  · rw [h] at hd; cases hd
  · rw [h] at hd; cases hd
  · obtain rfl := Decoded.instr.inj (h.symm.trans hd)
    rw [Instr.op_of, Instr.width_of, ← outcomeAtWidth_of_op hop, decodeWidth_bits]
    exact if_neg (not_not_intro hrsv)

theorem requestOutcome_of_reserved {q : Request} {why : ReservedReason}
    (h : decode q.cmd = .reserved why) : requestOutcome q = .fault .illegal := by
  rcases decode_cases q.cmd with ⟨hrsv, _⟩ | ⟨hrsv, hop, _⟩ | ⟨op, _, _, hd⟩
  · exact if_pos hrsv
  · exact (if_neg (not_not_intro hrsv)).trans (outcomeAtWidth_of_none hop _ q)
  · rw [h] at hd; cases hd

/-- Only a decoded command can end without a fault. -/
theorem decode_of_not_fault {q : Request} (h : ∀ f, requestOutcome q ≠ .fault f) :
    ∃ i, decode q.cmd = .instr i := by
  cases hd : decode q.cmd with
  | instr i => exact ⟨i, rfl⟩
  | reserved why => exact absurd (requestOutcome_of_reserved hd) (h .illegal)

/-! ### The step -/

/-- Decoding, dispatch and the meanings together compute `F` of the request on the ports (R70). -/
theorem step_eq_deliver (s : State) : step s = deliver (requestOutcome s.fetch.req) s.fetch := by
  cases hd : decode s.fetch.req.cmd with
  | instr i => rw [step_of_instr hd, exec_eq, requestOutcome_of_instr hd]
  | reserved why => rw [step_of_reserved hd, requestOutcome_of_reserved hd, deliver_fault]

/-- Everything a step can do when it goes on. -/
theorem step_eq_next {s t : State} :
    step s = .next t ↔ t = portStep s ∧ ∀ f, requestOutcome s.fetch.req ≠ .fault f := by
  rw [step_eq_deliver, deliver_eq_next]
  rfl

/-- Everything a step can do when it stops with a fault. -/
theorem step_eq_fault {s : State} {f : Fault} :
    step s = .fault f ↔ requestOutcome s.fetch.req = .fault f := by
  rw [step_eq_deliver, deliver_eq_fault]

theorem portStep_settled (s : State) : Settled (portStep s) := rfl

/-- Settles O36: an instruction drives the response ports only, and a step is one transaction on the fetched state. -/
theorem requestPortsAreNeverDriven : Obligations.RequestPortsAreNeverDriven := by
  unfold Obligations.RequestPortsAreNeverDriven
  refine ⟨fun i s t h => ?_, fun s t h => ?_⟩
  · rw [exec_eq, deliver_eq_next] at h
    obtain ⟨rfl, -⟩ := h
    exact ⟨rfl, rfl⟩
  · obtain ⟨rfl, -⟩ := step_eq_next.1 h
    exact ⟨rfl, rfl⟩

/-- Settles O38: fault and response are read off `F` of the fetched request, which the two states share. -/
theorem responseDependsOnItsRequestAlone : Obligations.ResponseDependsOnItsRequestAlone := by
  unfold Obligations.ResponseDependsOnItsRequestAlone
  intro s s' hreq
  refine ⟨fun f => ?_, fun t h => ?_⟩
  · rw [step_eq_fault, step_eq_fault, hreq]
  · obtain ⟨rfl, hok⟩ := step_eq_next.1 h
    rw [hreq] at hok
    refine step_eq_next.2 ⟨?_, hok⟩
    rw [portStep_rsp, hreq]
    rfl

/-- Settles O45: a step that goes on is the transaction at the ports, which drives `F` of its request. -/
theorem stepsKeepPortsSettled : Obligations.StepsKeepPortsSettled := by
  unfold Obligations.StepsKeepPortsSettled
  refine ⟨fun s t _ h => ?_, portStep_settled⟩
  obtain ⟨rfl, -⟩ := step_eq_next.1 h
  exact portStep_settled s

theorem reset_settled : Settled State.reset := by
  unfold Settled
  decide

/-- Settles O43: TOINT.32 of 0 is 0, and the request on the ports is well formed. -/
theorem resetIsSettled : Obligations.ResetIsSettled := by
  unfold Obligations.ResetIsSettled
  have hpending : State.reset.pending = [] := rfl
  have hwf : State.reset.req.wellFormed = true := by decide
  exact ⟨reset_settled, ⟨by simp [hpending], fun _ => hwf⟩, hpending, rfl, rfl⟩

end Sys2Proof.Machine

/-! SUPPORT. Every response of `F` without a fault is a legal one, and the proofs of O46 and O47 from it. -/

namespace Sys2Proof.Machine

/-! ### The three shapes of a response that is no fault -/

theorem zext128_getLsbD_of_ge {w : Nat} (v : BitVec w) {j : Nat} (h : w ≤ j) :
    (zext128 v).getLsbD j = false := by
  rw [zext128_getLsbD, BitVec.getLsbD_of_ge v j h, Bool.and_false]

/-- A number in `[0, W]` fits port `C` (R110). -/
theorem countPort_toNat {W : Width} {c : Nat} (h : c ≤ W.bits) : (BitVec.ofNat 8 c).toNat = c := by
  have := W.bits_le
  rw [BitVec.toNat_ofNat, Nat.mod_eq_of_lt (by omega)]

/-- TOINT, MPFX and MPOST: a vector within the width and no count (R63). -/
theorem legalResponse_vector {i : Instr} (hop : i.op = .toint ∨ i.op = .mpfx ∨ i.op = .mpost)
    (q : Request) (x : BitVec i.width.bits) : LegalResponse i q (pack (vectorResult x)) where
  status := .inl rfl
  zeroWithoutResult h := absurd rfl h
  vectorWidth _ hj := zext128_getLsbD_of_ge x hj
  countRange := Nat.zero_le _
  noCount _ := rfl
  noVector h := by rcases hop with e | e | e <;> simp [e] at h
  networkAsGiven h := by simp [h] at hop
  hostBitsZero h := by simp [h] at hop

/-- CPFX and CPOST: a count within the width and no vector (R63, R110). -/
theorem legalResponse_count {i : Instr} (hop : i.op = .cpfx ∨ i.op = .cpost) (q : Request) {c : Nat}
    (hc : c ≤ i.width.bits) : LegalResponse i q (pack (countResult c)) where
  status := .inl rfl
  zeroWithoutResult h := absurd rfl h
  vectorWidth _ _ := BitVec.getLsbD_zero
  countRange := (countPort_toNat hc).trans_le hc
  noCount h := by rcases hop with e | e <;> simp [e] at h
  noVector _ := rfl
  networkAsGiven h := by simp [h] at hop
  hostBitsZero h := by simp [h] at hop

/-- DERIVE with a block: the network as given, its host bits zero (R144, R148). -/
theorem legalResponse_block {i : Instr} (hop : i.op = .derive) {q : Request}
    {blk : CidrBlock i.width.bits} (hnet : blk.network = lowW i.width.bits q.a)
    (hlen : blk.prefixLength ≤ i.width.bits)
    (hhost : (toInteger blk.network).toNat % 2 ^ (i.width.bits - blk.prefixLength) = 0) :
    LegalResponse i q (pack (blockResult (some blk))) where
  status := .inl rfl
  zeroWithoutResult h := absurd rfl h
  vectorWidth _ hj := zext128_getLsbD_of_ge blk.network hj
  countRange := (countPort_toNat hlen).trans_le hlen
  noCount h := by simp [hop] at h
  noVector h := by simp [hop] at h
  networkAsGiven _ _ := congrArg zext128 hnet
  hostBitsZero _ _ := by
    rw [blockResult_some, pack_ok, lowW_zext128 i.width.bits_le, countPort_toNat hlen]
    exact hhost

/-- DERIVE with the error: its status and zero ports (R65, R66). -/
theorem legalResponse_invalidNetworkBoundary {i : Instr} (hop : i.op = .derive) (q : Request) :
    LegalResponse i q (pack .invalidNetworkBoundary) where
  status := .inr ⟨rfl, hop⟩
  zeroWithoutResult _ := ⟨rfl, rfl⟩
  vectorWidth _ _ := BitVec.getLsbD_zero
  countRange := Nat.zero_le _
  noCount _ := rfl
  noVector _ := rfl
  networkAsGiven _ h := absurd h (by decide)
  hostBitsZero _ h := absurd h (by decide)

/-! ### Every operation answers in one of them -/

/-- A mask without a fault is a vector result (R172). -/
theorem legalResponse_mask {i : Instr} (hop : i.op = .mpfx ∨ i.op = .mpost) (q : Request) {n : Count}
    {mask : Nat → BitVec i.width.bits} (h : ∀ f, maskResult n mask ≠ .fault f) :
    LegalResponse i q (pack (maskResult n mask)) := by
  rw [maskResult_eq] at h ⊢
  split
  · rename_i hn
    exact absurd (if_pos hn) (h .precond)
  · exact legalResponse_vector (.inr hop) q (mask n.toNat)

theorem legalResponse_derive {i : Instr} (hop : i.op = .derive) (q : Request) :
    LegalResponse i q (pack (derive (lowW i.width.bits q.a) (lowW i.width.bits q.b))) := by
  rw [derive_eq]
  cases hblk : deriveBlock (lowW i.width.bits q.a) (lowW i.width.bits q.b) with
  | none => exact legalResponse_invalidNetworkBoundary hop q
  | some blk =>
    obtain ⟨hnet, hlen, hhost⟩ := deriveBlock_some hblk
    exact legalResponse_block hop hnet hlen hhost

theorem legalResponse_opOutcome {i : Instr} {q : Request}
    (h : ∀ f, opOutcome i.op i.width q ≠ .fault f) :
    LegalResponse i q (pack (opOutcome i.op i.width q)) := by
  cases hop : i.op with
  | toint => exact legalResponse_vector (.inl hop) q _
  | cpfx => exact legalResponse_count (.inl hop) q (commonPrefixBits_le _ _)
  | cpost => exact legalResponse_count (.inr hop) q (commonPostfixBits_le _ _)
  | mpfx => exact legalResponse_mask (.inl hop) q (by rwa [hop] at h)
  | mpost => exact legalResponse_mask (.inr hop) q (by rwa [hop] at h)
  | derive => exact legalResponse_derive hop q

/-- Response ports that are `F` of the request ports are legal, unless the request is a fault. -/
theorem portsLegal_of_settled {s : State} (hs : Settled s)
    (h : ∀ f, requestOutcome s.req ≠ .fault f) : PortsLegal s := by
  obtain ⟨i, hi⟩ := decode_of_not_fault h
  rw [requestOutcome_of_instr hi] at h
  refine ⟨i, hi, ?_⟩
  rw [hs, portResponse, requestOutcome_of_instr hi]
  exact legalResponse_opOutcome h

/-- Settles O46: a step that goes on ends settled on a request that is no fault. The response depends on nothing
earlier (R20), so the legality of the ports before the step is not needed. -/
theorem stepsKeepPortsLegal : Obligations.StepsKeepPortsLegal := by
  unfold Obligations.StepsKeepPortsLegal
  intro s t _ h
  obtain ⟨rfl, hok⟩ := step_eq_next.1 h
  exact portsLegal_of_settled (portStep_settled s) hok

/-- Settles O47: the reset state is settled on TOINT.32, which never faults. -/
theorem resetPortsAreLegal : Obligations.ResetPortsAreLegal := by
  unfold Obligations.ResetPortsAreLegal
  have hi : decode State.reset.req.cmd = .instr .toint32 := by decide
  refine portsLegal_of_settled reset_settled fun f hf => ?_
  rw [requestOutcome_of_instr hi] at hf
  cases hf

end Sys2Proof.Machine

/-! SUPPORT. An Address by its octets: its lanes on a port, its big-endian integer encoding, and the proofs of O19, O20
and O21 from them (R41, R42, R43). -/

namespace Sys2Proof.Machine

/-! ### Octet lanes -/

/-- A port of `8 * o.length` bits holds the whole number of the lanes (R42). -/
theorem lanesOfOctets_toNat {w : Nat} {o : List Octet} (h : w = 8 * o.length) :
    (lanesOfOctets w o).toNat = ∑ k ∈ Finset.range o.length, (o.getD k 0).toNat * 2 ^ (8 * k) := by
  have hlt := octetSum_lt (fun k => o.getD k 0) o.length
  rw [lanesOfOctets, BitVec.toNat_ofNat, lanesNumber_eq_sum, h, Nat.mod_eq_of_lt hlt]

/-- Lane `k` holds octet `k` (R42). -/
theorem octet_lanesOfOctets {w : Nat} {o : List Octet} (h : w = 8 * o.length) {k : Nat}
    (hk : k < o.length) : octet (lanesOfOctets w o) k = o.getD k 0 := by
  refine BitVec.eq_of_getLsbD_eq fun j hj => ?_
  rw [octet_getLsbD, ← BitVec.testBit_toNat, lanesOfOctets_toNat h,
    octetSum_testBit (fun k => o.getD k 0) hk hj, decide_eq_true hj, Bool.true_and]

theorem octetsOfLanes_lanesOfOctets {w : Nat} {o : List Octet} (h : w = 8 * o.length) :
    octetsOfLanes (lanesOfOctets w o) = o := by
  refine List.ext_getElem (by rw [octetsOfLanes_length]; omega) fun k _ hk => ?_
  simp [octetsOfLanes, octet_lanesOfOctets h hk, hk]

theorem octetsOfLanes_eq_iff {w : Nat} {a b : BitVec w} :
    octetsOfLanes a = octetsOfLanes b ↔ ∀ k < w / 8, octet a k = octet b k := by
  simp [octetsOfLanes]

/-! ### The integer encoding -/

/-- The integer encoding weighs the octets of the lanes from the first one down (R41). -/
theorem toInteger_lanesOfOctets {W : Width} {o : List Octet} (h : o.length = W.octets) :
    (toInteger (lanesOfOctets W.bits o)).toNat =
      ∑ k ∈ Finset.range W.octets, (o.getD k 0).toNat * 2 ^ (W.bits - 8 - 8 * k) := by
  rw [toInteger_eq_sum]
  refine Finset.sum_congr rfl fun k hk => ?_
  rw [octet_lanesOfOctets (h ▸ W.bits_eq) (h ▸ Finset.mem_range.1 hk)]

/-- The integer encoding holds octet `k` in the lane that lies as far from the top as lane `k` from the bottom (R41). -/
theorem extractLsb'_toInteger {W : Width} (a : BitVec W.bits) {k : Nat} (hk : k < W.octets) :
    (toInteger a).extractLsb' (W.bits - 8 - 8 * k) 8 = octet a k := by
  refine BitVec.eq_of_getLsbD_eq fun j hj => ?_
  rw [BitVec.getLsbD_extractLsb', toInteger_bit W a hk hj, octet_getLsbD]

theorem toInteger_bijective (W : Width) :
    Function.Bijective (fun a : BitVec W.bits => toInteger a) :=
  Function.Involutive.bijective (toInteger_involutive W)

/-- Addresses are equal when their octets are: the integer encoding reads nothing else (R41). -/
theorem octetsOfLanes_inj {W : Width} {a b : BitVec W.bits} :
    octetsOfLanes a = octetsOfLanes b ↔ a = b := by
  refine ⟨fun h => (toInteger_bijective W).injective (BitVec.eq_of_toNat_eq ?_), fun h => h ▸ rfl⟩
  rw [octetsOfLanes_eq_iff] at h
  rw [toInteger_eq_sum, toInteger_eq_sum]
  exact Finset.sum_congr rfl fun k hk => by rw [h k (Finset.mem_range.1 hk)]

/-- Settles O19: the lanes weigh the octets from the last one down, the integer encoding from the first one down. -/
theorem addressLanesAndIntegerEncoding : Obligations.AddressLanesAndIntegerEncoding := by
  unfold Obligations.AddressLanesAndIntegerEncoding
  intro W o ho
  have hbits : W.bits = 8 * o.length := ho ▸ W.bits_eq
  exact ⟨fun k hk => octet_lanesOfOctets hbits (ho ▸ hk), octetsOfLanes_lanesOfOctets hbits,
    ho ▸ lanesOfOctets_toNat hbits, toInteger_lanesOfOctets ho⟩

/-- Settles O20: the encoding is its own inverse, and its end octets are those of lanes `0` and `NOCT - 1`. -/
theorem integerEncodingIsABijection : Obligations.IntegerEncodingIsABijection := by
  unfold Obligations.IntegerEncodingIsABijection
  intro W
  have hbits := W.bits_eq
  have hpos : 0 < W.octets := by have := W.bits_pos; omega
  refine ⟨toInteger_bijective W, toInteger_eq_sum W, fun a => ⟨?_, ?_⟩,
    fun a b => ⟨(toInteger_bijective W).injective.eq_iff, octetsOfLanes_inj⟩⟩
  · exact extractLsb'_toInteger a hpos
  · have hlast := extractLsb'_toInteger a (Nat.sub_one_lt_of_lt hpos)
    have hlane : 8 * (W.octets - 1) = W.bits - 8 := by omega
    rwa [octet, hlane, Nat.sub_self] at hlast

/-! ### Words of 16 bits -/

theorem sum_range_two_mul (f : Nat → Nat) (n : Nat) :
    ∑ k ∈ Finset.range (2 * n), f k = ∑ j ∈ Finset.range n, (f (2 * j) + f (2 * j + 1)) := by
  induction n with
  | zero => rfl
  | succ n ih =>
    rw [Nat.mul_succ, Finset.sum_range_succ, Finset.sum_range_succ, Finset.sum_range_succ, ih,
      Nat.add_assoc]

/-- The two octets of word `j`, the upper one first (R43). -/
theorem octetsOfWords_getD (s : List (BitVec 16)) (j : Nat) :
    (octetsOfWords s).getD (2 * j) 0 = (s.getD j 0).extractLsb' 8 8 ∧
    (octetsOfWords s).getD (2 * j + 1) 0 = (s.getD j 0).extractLsb' 0 8 := by
  induction s generalizing j with
  | nil => simp [octetsOfWords]
  | cons x rest ih =>
    cases j with
    | zero => exact ⟨rfl, rfl⟩
    | succ j => exact ih j

theorem toNat_eq_octets (x : BitVec 16) :
    x.toNat = (x.extractLsb' 8 8).toNat * 2 ^ 8 + (x.extractLsb' 0 8).toNat := by
  have := x.isLt
  simp only [BitVec.extractLsb'_toNat, Nat.shiftRight_eq_div_pow]
  omega

/-- Settles O21: octets `2j` and `2j + 1` are word `j`, and their weights are `2^8` and `1` times the word's. -/
theorem wordsOfAnAddressPackBigEndian : Obligations.WordsOfAnAddressPackBigEndian := by
  unfold Obligations.WordsOfAnAddressPackBigEndian
  intro s hs
  have hlen : (octetsOfWords s).length = Width.w128.octets := by
    rw [octetsOfWords_length, hs]; rfl
  refine ((toInteger_lanesOfOctets hlen).trans (sum_range_two_mul _ 8)).trans ?_
  refine Finset.sum_congr rfl fun j hj => ?_
  have hj := Finset.mem_range.1 hj
  obtain ⟨hupper, hlower⟩ := octetsOfWords_getD s j
  have hw : 2 ^ (128 - 8 - 8 * (2 * j)) = 2 ^ 8 * 2 ^ (112 - 16 * j) := by
    rw [← Nat.pow_add]; congr 1; omega
  have hw' : 128 - 8 - 8 * (2 * j + 1) = 112 - 16 * j := by omega
  simp only [Width.bits]
  rw [hupper, hlower, hw, hw', toNat_eq_octets (s.getD j 0)]
  ring

end Sys2Proof.Machine

/-! SUPPORT. Which requests end without a fault, the host's sequence of requests, and the proofs of O39 and O42 from
them (R40, R48, R202, R204). -/

namespace Sys2Proof.Machine

/-! ### A well-formed request is answered -/

theorem decodeOp_eq_none_iff (op : BitVec 3) : decodeOp op = none ↔ 5 < op.toNat := by
  revert op; decide

/-- The operation field selects a mask exactly when it decodes to MPFX or MPOST (R62). -/
theorem selectsMask_iff (cmd : CommandByte) : selectsMask cmd = true ↔
    decodeOp (opField cmd) = some .mpfx ∨ decodeOp (opField cmd) = some .mpost := by
  rw [selectsMask]
  generalize opField cmd = op
  revert op; decide

theorem countInRange_iff (cmd : CommandByte) (n : Count) :
    countInRange cmd n = true ↔ n.toNat ≤ (decodeWidth (wselField cmd)).bits := by
  rw [decodeWidth_bits, countInRange, decide_eq_true_iff]

theorem legalCommand_iff_decodeOp (cmd : CommandByte) :
    legalCommand cmd = true ↔ rsvField cmd = 0 ∧ decodeOp (opField cmd) ≠ none := by
  rw [legalCommand_iff, ne_eq, decodeOp_eq_none_iff, Nat.not_lt]

theorem wellFormed_of_not_legalCommand {q : Request} (h : ¬ legalCommand q.cmd = true) :
    q.wellFormed = false := by
  simp [Request.wellFormed, h]

/-- The host's two duties, on a decoded command (R204). -/
theorem wellFormed_iff_of_decodeOp {q : Request} {op : Op} (hrsv : rsvField q.cmd = 0)
    (hop : decodeOp (opField q.cmd) = some op) : q.wellFormed = true ↔
      (op = .mpfx ∨ op = .mpost → q.n.toNat ≤ (decodeWidth (wselField q.cmd)).bits) := by
  have hlegal : legalCommand q.cmd = true :=
    (legalCommand_iff_decodeOp _).2 ⟨hrsv, by simp [hop]⟩
  have hmask : selectsMask q.cmd = true ↔ op = .mpfx ∨ op = .mpost := by
    rw [selectsMask_iff, hop, Option.some_inj, Option.some_inj]
  rw [Request.wellFormed, hlegal, Bool.true_and, ← hmask, ← countInRange_iff]
  cases selectsMask q.cmd <;> simp

/-- A mask faults only above its width (R172). -/
theorem maskResult_ne_fault_iff {w : Nat} (n : Count) (mask : Nat → BitVec w) :
    (∀ f, maskResult n mask ≠ .fault f) ↔ n.toNat ≤ w := by
  rw [maskResult_eq]
  by_cases h : w < n.toNat
  · simp [h]
  · simp [h, Nat.not_lt.1 h]

theorem blockResult_ne_fault {w : Nat} (blk : Option (CidrBlock w)) (f : Fault) :
    blockResult blk ≠ .fault f := by
  cases blk <;> simp

/-- MPFX and MPOST fault above their width, and no other operation faults on any operand (R172). -/
theorem opOutcome_ne_fault_iff (op : Op) (W : Width) (q : Request) :
    (∀ f, opOutcome op W q ≠ .fault f) ↔ (op = .mpfx ∨ op = .mpost → q.n.toNat ≤ W.bits) := by
  cases op with
  | toint => simp [opOutcome, toint, vectorResult]
  | cpfx => simp [opOutcome, cpfx, countResult]
  | cpost => simp [opOutcome, cpost, countResult]
  | mpfx => simpa [opOutcome, mpfx] using maskResult_ne_fault_iff q.n (prefixMask W.bits)
  | mpost => simpa [opOutcome, mpost] using maskResult_ne_fault_iff q.n (postfixMask W.bits)
  | derive => simp [opOutcome, derive_eq, blockResult_ne_fault]

/-- The host's duties are exactly what keeps `F` from a fault (R204, R172, R173). -/
theorem wellFormed_iff (q : Request) :
    q.wellFormed = true ↔ ∀ f, requestOutcome q ≠ .fault f := by
  rcases decode_cases q.cmd with ⟨hrsv, hd⟩ | ⟨hrsv, hop, hd⟩ | ⟨op, hrsv, hop, hd⟩
  · have hillegal := wellFormed_of_not_legalCommand fun h =>
      hrsv ((legalCommand_iff_decodeOp _).1 h).1
    simp [requestOutcome_of_reserved hd, hillegal]
  · have hillegal := wellFormed_of_not_legalCommand fun h =>
      ((legalCommand_iff_decodeOp _).1 h).2 hop
    simp [requestOutcome_of_reserved hd, hillegal]
  · rw [requestOutcome_of_instr hd, Instr.op_of, Instr.width_of, opOutcome_ne_fault_iff]
    exact wellFormed_iff_of_decodeOp hrsv hop

/-! ### One request after another -/

/-- A transaction on ports that are settled already leaves them as they are (R20, R31). -/
theorem step_of_fetch_settled {s t : State} (hfetch : s.fetch = t) (hsettled : Settled t)
    (hok : ∀ f, requestOutcome t.req ≠ .fault f) : step s = .next t := by
  subst hfetch
  refine step_eq_next.2 ⟨?_, hok⟩
  rw [portStep, ← hsettled]
  rfl

/-- The next pending request, if it is well formed, is answered with its own response (R48). -/
theorem step_of_pending_cons {s : State} {q : Request} {qs : List Request}
    (hs : s.pending = q :: qs) (hq : q.wellFormed = true) :
    step s = .next { req := q, rsp := portResponse q, pending := qs } := by
  refine step_eq_next.2 ⟨?_, ?_⟩
  · rw [portStep, State.fetch_of_cons hs]
    rfl
  · rw [State.fetch_of_cons hs]
    exact (wellFormed_iff q).1 hq

/-- Settles O39: a step that goes on leaves its request settled on the ports, and either way that request is fetched
again. -/
theorem repeatedRequestRepeatsItsResponse : Obligations.RepeatedRequestRepeatsItsResponse := by
  unfold Obligations.RepeatedRequestRepeatsItsResponse
  intro s t h
  obtain ⟨rfl, hok⟩ := step_eq_next.1 h
  have hsettled := portStep_settled s
  exact ⟨step_of_fetch_settled (State.fetch_of_cons rfl) hsettled hok,
    fun hnil => step_of_fetch_settled (State.fetch_of_nil hnil) hsettled hok⟩

/-- Settles O42, by induction on the host's list: the first step answers its head, whatever state it starts from, and
the rest of the run is that of its tail. -/
theorem programResponsesAreIndependent : Obligations.ProgramResponsesAreIndependent := by
  unfold Obligations.ProgramResponsesAreIndependent
  intro qs
  induction qs with
  | nil => simp
  | cons head tail ih =>
    intro s hwf k q hk
    obtain ⟨hhead, htail⟩ := List.forall_mem_cons.1 hwf
    have hstep := step_of_pending_cons (s := { s with pending := head :: tail }) rfl hhead
    rw [core_run_of_next hstep]
    cases k with
    | zero =>
      obtain rfl := Option.some.inj hk
      rfl
    | succ k =>
      exact ih { req := head, rsp := portResponse head, pending := tail } htail k q hk

end Sys2Proof.Machine

/-! SUPPORT. The fields of a command byte, the decoder's two verdicts by those fields, and the proofs of O1, O2 and O3
from them (R60 to R62, R67). -/

namespace Sys2Proof

/-! ### The fields of a command byte -/

theorem rsvField_eq_zero_iff (cmd : CommandByte) : rsvField cmd = 0 ↔ cmd.toNat < 16 := by
  have := cmd.isLt
  rw [rsvField, ← BitVec.toNat_inj, BitVec.extractLsb'_toNat, Nat.shiftRight_eq_div_pow]
  simp only [BitVec.ofNat_eq_ofNat, BitVec.toNat_ofNat]
  omega

theorem opField_toNat (cmd : CommandByte) : (opField cmd).toNat = cmd.toNat % 8 := by
  rw [opField, BitVec.extractLsb'_toNat, Nat.shiftRight_zero]

/-- The three fields are the whole byte, so none of its bits is dropped (R60). -/
theorem command_eq_fields (cmd : CommandByte) :
    cmd = rsvField cmd ++ BitVec.ofBool (wselField cmd) ++ opField cmd := by
  revert cmd; decide

/-- Setting `CMD[3]` sets the width select and leaves the other two fields (R60). -/
theorem fields_or_wsel (cmd : CommandByte) :
    rsvField (cmd ||| 0x08#8) = rsvField cmd ∧ wselField (cmd ||| 0x08#8) = true ∧
      opField (cmd ||| 0x08#8) = opField cmd := by
  revert cmd; decide

/-- A command is legal exactly for the values of R67. -/
theorem legal_iff_toNat (cmd : CommandByte) :
    rsvField cmd = 0 ∧ (opField cmd).toNat ≤ 5 ↔
      cmd.toNat ≤ 0x05 ∨ (0x08 ≤ cmd.toNat ∧ cmd.toNat ≤ 0x0D) := by
  rw [rsvField_eq_zero_iff, opField_toNat]
  omega

/-! ### The decoder's verdicts by the fields -/

/-- What is decoded, field by field (R61, R62). -/
theorem decode_eq_instr_iff {cmd : CommandByte} {i : Instr} :
    decode cmd = .instr i ↔ rsvField cmd = 0 ∧ decodeOp (opField cmd) = some i.op ∧
      decodeWidth (wselField cmd) = i.width := by
  rcases decode_cases cmd with ⟨hrsv, hd⟩ | ⟨-, hop, hd⟩ | ⟨op, hrsv, hop, hd⟩
  · exact iff_of_false (by simp [hd]) fun h => hrsv h.1
  · exact iff_of_false (by simp [hd]) fun h => by simp [hop] at h
  · rw [hd, hop, Decoded.instr.injEq, Option.some_inj]
    constructor
    · rintro rfl
      simp [hrsv]
    · rintro ⟨-, rfl, hw⟩
      rw [hw, Instr.of_op_width]

/-- Exactly the commands that are not legal are reserved (R67). -/
theorem decode_eq_reserved_iff {cmd : CommandByte} :
    (∃ why, decode cmd = .reserved why) ↔ ¬ (rsvField cmd = 0 ∧ (opField cmd).toNat ≤ 5) := by
  have hnone := Machine.decodeOp_eq_none_iff (opField cmd)
  rcases decode_cases cmd with ⟨hrsv, hd⟩ | ⟨-, hop, hd⟩ | ⟨op, hrsv, hop, hd⟩
  · exact iff_of_true ⟨_, hd⟩ fun h => hrsv h.1
  · exact iff_of_true ⟨_, hd⟩ fun h => Nat.not_le.2 (hnone.1 hop) h.2
  · have hle : (opField cmd).toNat ≤ 5 := by simpa [hop] using hnone
    simp [hd, hrsv, hle]

theorem decode_encode (i : Instr) : decode (encode i) = .instr i := by
  cases i <;> rfl

/-- The byte of the command map, laid out from its fields (R60, R62). -/
theorem encode_of_decodeOp {o : BitVec 3} {op : Op} (h : decodeOp o = some op) (wsel : Bool) :
    encode (Instr.of op (decodeWidth wsel)) = 0#4 ++ BitVec.ofBool wsel ++ o := by
  rcases decodeOp_cases o with ⟨rfl, h'⟩ | ⟨rfl, h'⟩ | ⟨rfl, h'⟩ | ⟨rfl, h'⟩ | ⟨rfl, h'⟩ |
    ⟨rfl, h'⟩ | ⟨-, h'⟩ <;> rw [h] at h' <;> cases h' <;> cases wsel <;> rfl

theorem encode_of_decode {cmd : CommandByte} {i : Instr} (h : decode cmd = .instr i) :
    encode i = cmd := by
  obtain ⟨hrsv, hop, hwidth⟩ := decode_eq_instr_iff.1 h
  calc encode i = encode (Instr.of i.op (decodeWidth (wselField cmd))) := by
        rw [hwidth, Instr.of_op_width]
    _ = rsvField cmd ++ BitVec.ofBool (wselField cmd) ++ opField cmd := by
        rw [encode_of_decodeOp hop, hrsv]; rfl
    _ = cmd := (command_eq_fields cmd).symm

/-- Settles O1: the twelve bytes are those the encoder gives, and the others have a value that is not legal. -/
theorem decodeFollowsTheCommandMap : Obligations.DecodeFollowsTheCommandMap := by
  unfold Obligations.DecodeFollowsTheCommandMap
  refine ⟨decode_encode .toint32, decode_encode .toint128, decode_encode .cpfx32,
    decode_encode .cpfx128, decode_encode .cpost32, decode_encode .cpost128,
    decode_encode .mpfx32, decode_encode .mpfx128, decode_encode .mpost32,
    decode_encode .mpost128, decode_encode .derive32, decode_encode .derive128, ?_⟩
  intro cmd hcmd
  rw [decode_eq_reserved_iff, legal_iff_toNat]
  rcases hcmd with rfl | rfl | rfl | rfl | hge
  · decide
  · decide
  · decide
  · decide
  · omega

/-- Settles O2: the map read by instruction, and a byte put together again from its decoded fields. -/
theorem decodeAndEncodeAgree : Obligations.DecodeAndEncodeAgree := by
  unfold Obligations.DecodeAndEncodeAgree
  exact ⟨decode_encode, fun _ _ => encode_of_decode⟩

/-- Settles O3: the width is read from `CMD[3]` alone, and the operation from fields that `CMD[3]` is no part of. -/
theorem widthComesFromWselAlone : Obligations.WidthComesFromWselAlone := by
  unfold Obligations.WidthComesFromWselAlone
  intro cmd i h
  obtain ⟨hrsv, hop, hwidth⟩ := decode_eq_instr_iff.1 h
  refine ⟨?_, fun _ => decode_eq_instr_iff.2 ?_⟩
  · rw [← hwidth, decodeWidth_bits, wselField]
  · obtain ⟨hrsv', hwsel', hop'⟩ := fields_or_wsel cmd
    rw [hrsv', hwsel', hop', Instr.op_of, Instr.width_of]
    exact ⟨hrsv, hop, rfl⟩

end Sys2Proof

/-! SUPPORT. When an instruction stops, when its status is the error, and the proofs of O4, O5, O6, O32, O33 and O37
from them (R63, R65 to R67, R70, R149, R172, R173). -/

namespace Sys2Proof.Machine

/-! ### Faults -/

theorem maskResult_eq_fault_iff {w : Nat} (n : Count) (mask : Nat → BitVec w) (f : Fault) :
    maskResult n mask = .fault f ↔ f = .precond ∧ w < n.toNat := by
  rw [maskResult_eq]
  by_cases h : w < n.toNat <;> simp [h, eq_comm]

/-- A fault of an operation is the precondition of MPFX and MPOST, violated (R172). -/
theorem opOutcome_eq_fault_iff (op : Op) (W : Width) (q : Request) (f : Fault) :
    opOutcome op W q = .fault f ↔
      f = .precond ∧ (op = .mpfx ∨ op = .mpost) ∧ W.bits < q.n.toNat := by
  cases op with
  | toint => simp [opOutcome, toint, vectorResult]
  | cpfx => simp [opOutcome, cpfx, countResult]
  | cpost => simp [opOutcome, cpost, countResult]
  | mpfx => simpa [opOutcome, mpfx] using maskResult_eq_fault_iff q.n (prefixMask W.bits) f
  | mpost => simpa [opOutcome, mpost] using maskResult_eq_fault_iff q.n (postfixMask W.bits) f
  | derive => simp [opOutcome, derive_eq, blockResult_ne_fault]

/-- Everything an instruction can do when it stops (R172). -/
theorem exec_eq_fault_iff {i : Instr} {s : State} {f : Fault} :
    exec i s = .fault f ↔
      f = .precond ∧ (i.op = .mpfx ∨ i.op = .mpost) ∧ i.width.bits < s.req.n.toNat := by
  rw [exec_eq, deliver_eq_fault, opOutcome_eq_fault_iff]

/-- The fault of a reserved command is that of no instruction (R173). -/
theorem step_eq_illegal_iff (s : State) :
    step s = .fault .illegal ↔ ∃ why, decode s.fetch.req.cmd = .reserved why := by
  cases hd : decode s.fetch.req.cmd with
  | instr i => simp [step_of_instr hd, exec_eq_fault_iff]
  | reserved why => simp [step_of_reserved hd]

theorem portResponse_of_reserved {q : Request} {why : ReservedReason}
    (h : decode q.cmd = .reserved why) : portResponse q = { status := 0b11#2, r := 0, c := 0 } := by
  rw [portResponse, requestOutcome_of_reserved h, pack_illegal]

/-- Settles O5: the reserved commands are those that are not legal, and nothing else makes a step the fault
`ILLEGAL`. -/
theorem reservedCommandsFault : Obligations.ReservedCommandsFault := by
  unfold Obligations.ReservedCommandsFault
  refine ⟨fun s => ⟨legal_iff_toNat _, fun hillegal => ?_, fun hlegal hstep => ?_⟩, by decide +kernel⟩
  · obtain ⟨why, hd⟩ := decode_eq_reserved_iff.2 hillegal
    exact ⟨step_of_reserved hd, portResponse_of_reserved hd⟩
  · exact decode_eq_reserved_iff.1 ((step_eq_illegal_iff s).1 hstep) hlegal

/-! ### A step -/

/-- Settles O6: by the decoder's verdict on the fetched command. -/
theorem stepComputesF : Obligations.StepComputesF := by
  unfold Obligations.StepComputesF
  exact step_eq_deliver

/-- Settles O4: the step's own dispatch, on the fetched state. -/
theorem stepRunsTheDecodedInstruction : Obligations.StepRunsTheDecodedInstruction := by
  unfold Obligations.StepRunsTheDecodedInstruction
  exact ⟨fun _ _ => step_of_instr, fun _ => State.fetch_of_nil, fun _ _ _ => State.fetch_of_cons⟩

/-- Without a result the packed ports are zero (R66). -/
theorem pack_zero_of_status_ne {v : Verdict} (h : (pack v).status ≠ 0b00#2) :
    (pack v).r = 0 ∧ (pack v).c = 0 := by
  cases v with
  | ok r c => exact absurd rfl h
  | invalidNetworkBoundary => exact ⟨rfl, rfl⟩
  | fault f => exact ⟨rfl, rfl⟩

/-- Settles O33: every response, of a step that goes on too, is a packed outcome. -/
theorem noResultMeansZeroPorts : Obligations.NoResultMeansZeroPorts := by
  unfold Obligations.NoResultMeansZeroPorts
  refine ⟨fun q => pack_zero_of_status_ne, fun s t h => ?_⟩
  obtain ⟨rfl, -⟩ := step_eq_next.1 h
  exact pack_zero_of_status_ne

/-! ### The operands an operation reads -/

theorem opOutcome_congr {op : Op} {W : Width} {q q' : Request} (h : SameOperands op W q q') :
    opOutcome op W q = opOutcome op W q' := by
  cases op with
  | toint => exact congrArg toint h
  | cpfx => exact congrArg₂ cpfx h.1 h.2
  | cpost => exact congrArg₂ cpost h.1 h.2
  | mpfx => exact congrArg (mpfx W.bits) h
  | mpost => exact congrArg (mpost W.bits) h
  | derive => exact congrArg₂ derive h.1 h.2

/-- Settles O37: both states deliver the one outcome of the operands they share. -/
theorem ignoredPortsHaveNoInfluence : Obligations.IgnoredPortsHaveNoInfluence := by
  unfold Obligations.IgnoredPortsHaveNoInfluence
  intro op W s s' hsame
  rw [exec_of, exec_of, opOutcome_congr hsame]
  refine ⟨fun f => by rw [deliver_eq_fault, deliver_eq_fault], fun t h => ?_⟩
  obtain ⟨rfl, hok⟩ := deliver_eq_next.1 h
  exact deliver_eq_next.2 ⟨rfl, hok⟩

/-! ### DERIVE accepts exactly the aligned blocks -/

theorem leadingZeros_postfixMask {w k : Nat} (hk : k ≤ w) :
    leadingZeros (postfixMask w k) = w - k := by
  refine leadingZeros_unique (Nat.sub_le w k) (fun j hj => ?_) fun hlt => ?_
  · rw [postfixMask_getLsbD hk, decide_eq_false_iff_not]
    omega
  · rw [postfixMask_getLsbD hk, decide_eq_true_iff]
    omega

/-- The first and the last address of an aligned block of `2^k` differ in exactly the low `k` bits (R146). -/
theorem xor_of_alignedBlock {w k : Nat} (hk : k ≤ w) {n b : BitVec w} (hn : n.toNat % 2 ^ k = 0)
    (hb : b.toNat = n.toNat + (2 ^ k - 1)) : n ^^^ b = postfixMask w k := by
  have hclear : n &&& postfixMask w k = 0 := by
    simpa [hostBitsClear] using (hostBitsClear_iff hk n).2 hn
  have hlast : b = n ||| postfixMask w k := by
    simpa [isLastAddress] using (isLastAddress_iff hk hn).2 hb
  refine BitVec.eq_of_getLsbD_eq fun j _ => ?_
  have hj : (n.getLsbD j && (postfixMask w k).getLsbD j) = false := by
    rw [← BitVec.getLsbD_and, hclear]; exact BitVec.getLsbD_zero
  have hbool : ∀ x m : Bool, (x && m) = false → (x ^^ (x || m)) = m := by decide
  rw [hlast, BitVec.getLsbD_xor, BitVec.getLsbD_or, hbool _ _ hj]

theorem commonPrefixBits_of_alignedBlock {w k : Nat} (hk : k ≤ w) {n b : BitVec w}
    (hn : n.toNat % 2 ^ k = 0) (hb : b.toNat = n.toNat + (2 ^ k - 1)) :
    commonPrefixBits n b = w - k := by
  rw [commonPrefixBits, xor_of_alignedBlock hk hn hb, leadingZeros_postfixMask hk]

/-- The pair of integers is an aligned block of `2^k` addresses, in the terms of R146 and in those of R140. -/
theorem alignedBlock_iff {w : Nat} (n b : BitVec w) (k : Nat) :
    2 ^ k ∣ n.toNat ∧ b.toNat = n.toNat + 2 ^ k - 1 ↔
      n.toNat % 2 ^ k = 0 ∧ b.toNat = n.toNat + (2 ^ k - 1) := by
  have := Nat.two_pow_pos k
  rw [Nat.dvd_iff_mod_eq_zero]
  omega

/-- An aligned block of `2^k` addresses is derived, with `W - k` bits of network (R146). -/
theorem deriveBlock_of_alignedBlock {w k : Nat} (hk : k ≤ w) {x y : BitVec w}
    (hdvd : 2 ^ k ∣ (toInteger x).toNat)
    (hlast : (toInteger y).toNat = (toInteger x).toNat + 2 ^ k - 1) :
    deriveBlock x y = some { network := x, prefixLength := w - k } := by
  obtain ⟨hn, hb⟩ := (alignedBlock_iff _ _ k).1 ⟨hdvd, hlast⟩
  rw [deriveBlock_eq, commonPrefixBits_of_alignedBlock hk hn hb, Nat.sub_sub_self hk,
    if_pos ⟨hn, hb⟩]

/-- The derivation fails exactly on the pairs that are no aligned block of any size (R149). -/
theorem deriveBlock_eq_none_iff {w : Nat} (x y : BitVec w) :
    deriveBlock x y = none ↔ ∀ k ≤ w, ¬ (2 ^ k ∣ (toInteger x).toNat ∧
      (toInteger y).toNat = (toInteger x).toNat + 2 ^ k - 1) := by
  constructor
  · rintro hnone k hk ⟨hdvd, hlast⟩
    rw [deriveBlock_of_alignedBlock hk hdvd hlast] at hnone
    cases hnone
  · intro h
    rw [deriveBlock_eq, if_neg]
    rw [← alignedBlock_iff]
    exact h _ (Nat.sub_le w _)

theorem derive_status_eq_errBoundary_iff {w : Nat} (x y : BitVec w) :
    (pack (derive x y)).status = 0b01#2 ↔ deriveBlock x y = none := by
  rw [derive_eq]
  cases deriveBlock x y <;> simp

/-! ### The status of an instruction that goes on -/

/-- Only DERIVE can answer with another status than `OK` (R65). -/
theorem status_of_exec_eq_next {i : Instr} {s t : State} (h : exec i s = .next t) :
    t.rsp.status = 0b00#2 ∨ (t.rsp.status = 0b01#2 ∧ i.op = .derive) := by
  rw [exec_eq, deliver_eq_next] at h
  obtain ⟨rfl, hok⟩ := h
  exact (legalResponse_opOutcome hok).status

/-- DERIVE answers the error exactly for the pairs that are no aligned block (R65, R149). -/
theorem status_of_exec_derive {W : Width} {s t : State} (h : exec (Instr.of .derive W) s = .next t) :
    t.rsp.status = 0b01#2 ↔ ∀ k ≤ W.bits, ¬ (2 ^ k ∣ (networkInt W s).toNat ∧
      (broadcastInt W s).toNat = (networkInt W s).toNat + 2 ^ k - 1) := by
  rw [exec_of, deliver_eq_next] at h
  obtain ⟨rfl, -⟩ := h
  exact (derive_status_eq_errBoundary_iff _ _).trans (deriveBlock_eq_none_iff _ _)

theorem exec_eq_next_of_ne_mask {i : Instr} (h : ¬ (i.op = .mpfx ∨ i.op = .mpost)) (s : State) :
    ∃ t, exec i s = .next t := by
  refine ⟨_, (exec_eq i s).trans (deliver_eq_next.2 ⟨rfl, ?_⟩)⟩
  exact (opOutcome_ne_fault_iff _ _ _).2 fun hmask => absurd hmask h

/-- Settles O32: what each instruction can answer when it goes on, when it stops, and when it is the error. -/
theorem statusesPerOperation : Obligations.StatusesPerOperation := by
  unfold Obligations.StatusesPerOperation
  refine ⟨⟨rfl, rfl, rfl, rfl⟩, fun _ _ _ => status_of_exec_eq_next, fun _ _ _ => exec_eq_fault_iff.1,
    fun _ _ _ => status_of_exec_derive, step_eq_illegal_iff, fun i s hop => ?_⟩
  obtain ⟨t, ht⟩ := exec_eq_next_of_ne_mask (i := i) (by rcases hop with e | e | e <;> simp [e]) s
  refine ⟨t, ht, (status_of_exec_eq_next ht).resolve_right fun herr => ?_⟩
  simp [herr.2] at hop

end Sys2Proof.Machine

/-! SUPPORT. What TOINT answers on the ports, and the proof of O8 from it (R63, R101). -/

namespace Sys2Proof.Machine

theorem exec_toint (W : Width) (s : State) :
    exec (Instr.of .toint W) s = .next { s with rsp :=
      { status := 0b00#2, r := zext128 (toInteger (lowW W.bits s.req.a)), c := 0 } } :=
  exec_of .toint W s

/-! ### Lanes of a port and of its low `W` bits -/

theorem octet_bound {W : Width} {k : Nat} (hk : k < W.octets) : 8 * k + 8 ≤ W.bits := by
  have := W.bits_eq
  omega

theorem octet_lowW {W : Width} (v : PortWord) {k : Nat} (hk : k < W.octets) :
    octet (lowW W.bits v) k = octet v k :=
  BitVec.extractLsb'_setWidth_of_le (octet_bound hk)

/-- The lanes of port `R` hold the octets of the integer encoding (R41, R50). -/
theorem extractLsb'_zext128_toInteger {W : Width} (a : BitVec W.bits) {k : Nat}
    (hk : k < W.octets) :
    (zext128 (toInteger a)).extractLsb' (W.bits - 8 - 8 * k) 8 = octet a k := by
  have := W.bits_le
  have := octet_bound hk
  rw [zext128, BitVec.extractLsb'_setWidth_of_le (by omega), extractLsb'_toInteger a hk]

/-! ### Values that are the same read from either end -/

/-- Every bit of the integer encoding is a bit of the Address, in the lane as far from the other end (R101). -/
theorem toInteger_getLsbD_of_lt {W : Width} (a : BitVec W.bits) {i : Nat} (hi : i < W.bits) :
    (toInteger a).getLsbD i = a.getLsbD (8 * (W.octets - 1 - i / 8) + i % 8) := by
  have hbits := W.bits_eq
  have hlane := toInteger_bit W a (k := W.octets - 1 - i / 8) (j := i % 8) (by omega) (by omega)
  rwa [show W.bits - 8 - 8 * (W.octets - 1 - i / 8) + i % 8 = i by omega] at hlane

theorem zext128_zero (w : Nat) : zext128 (0 : BitVec w) = 0 := BitVec.setWidth_zero 128 w

theorem toInteger_zero (W : Width) : toInteger (0 : BitVec W.bits) = 0 :=
  BitVec.eq_of_getLsbD_eq fun i hi => by simp [toInteger_getLsbD_of_lt _ hi]

theorem toInteger_allOnes (W : Width) :
    toInteger (BitVec.allOnes W.bits) = BitVec.allOnes W.bits := by
  refine BitVec.eq_of_getLsbD_eq fun i hi => ?_
  have := W.bits_eq
  rw [toInteger_getLsbD_of_lt _ hi, BitVec.getLsbD_allOnes, BitVec.getLsbD_allOnes,
    decide_eq_decide]
  omega

/-- Settles O8: port `R` is the integer encoding of the low `W` bits of port `A`, which is its own inverse. -/
theorem tointPacksOctetsBigEndian : Obligations.TointPacksOctetsBigEndian := by
  unfold Obligations.TointPacksOctetsBigEndian
  refine ⟨⟨decode_encode .toint32, decode_encode .toint128⟩, fun W s =>
    ⟨_, exec_toint W s, ?sum, fun k hk => ?octets, fun j => zext128_getLsbD_of_ge _,
      fun hzero => ?zero, fun hones => ?ones, ?inverse⟩⟩
  case sum =>
    rw [zext128_toNat W.bits_le, toInteger_eq_sum]
    exact Finset.sum_congr rfl fun k hk => by rw [octet_lowW _ (Finset.mem_range.1 hk), octet]
  case octets => rw [extractLsb'_zext128_toInteger _ hk, octet_lowW _ hk, octet]
  case zero => rw [lowW, hzero, toInteger_zero, zext128_zero]
  case ones => rw [lowW, hones, toInteger_allOnes, zext128]
  case inverse => rw [exec_toint, lowW_zext128 W.bits_le, toInteger_involutive]; rfl

end Sys2Proof.Machine

/-! SUPPORT. What the two counts answer on the ports, and the proofs of O9, O10, O11 and O18 from it (R102, R103, R110). -/

namespace Sys2Proof.Machine

theorem exec_cpfx {W : Width} {s : State} {c : Nat}
    (hc : commonPrefixBits (lowW W.bits s.req.a) (lowW W.bits s.req.b) = c) :
    exec (Instr.of .cpfx W) s = .next { s with rsp :=
      { status := 0b00#2, r := 0, c := BitVec.ofNat 8 c } } := by
  subst hc
  exact exec_of .cpfx W s

theorem exec_cpost {W : Width} {s : State} {c : Nat}
    (hc : commonPostfixBits (lowW W.bits s.req.a) (lowW W.bits s.req.b) = c) :
    exec (Instr.of .cpost W) s = .next { s with rsp :=
      { status := 0b00#2, r := 0, c := BitVec.ofNat 8 c } } := by
  subst hc
  exact exec_of .cpost W s

/-! ### What the counts count -/

/-- The leading bits up to the count agree, and the next ones differ (R102). -/
theorem commonPrefixBits_spec {w : Nat} (a b : BitVec w) :
    (∀ j < commonPrefixBits a b, a.getLsbD (w - 1 - j) = b.getLsbD (w - 1 - j)) ∧
    (commonPrefixBits a b < w →
      a.getLsbD (w - 1 - commonPrefixBits a b) ≠ b.getLsbD (w - 1 - commonPrefixBits a b)) := by
  obtain ⟨-, hagree, hdiffer⟩ := leadingZeros_spec (a ^^^ b)
  simp only [BitVec.getLsbD_xor, bne_eq_false_iff_eq, bne_iff_ne] at hagree hdiffer
  exact ⟨hagree, hdiffer⟩

/-- The trailing bits up to the count agree, and the next ones differ (R103). -/
theorem commonPostfixBits_spec {w : Nat} (a b : BitVec w) :
    (∀ j < commonPostfixBits a b, a.getLsbD j = b.getLsbD j) ∧
    (commonPostfixBits a b < w →
      a.getLsbD (commonPostfixBits a b) ≠ b.getLsbD (commonPostfixBits a b)) := by
  obtain ⟨-, hagree, hdiffer⟩ := trailingZeros_spec (a ^^^ b)
  simp only [BitVec.getLsbD_xor, bne_eq_false_iff_eq, bne_iff_ne] at hagree hdiffer
  exact ⟨hagree, hdiffer⟩

theorem commonPrefixBits_comm {w : Nat} (a b : BitVec w) :
    commonPrefixBits a b = commonPrefixBits b a :=
  congrArg leadingZeros (BitVec.xor_comm a b)

theorem commonPostfixBits_comm {w : Nat} (a b : BitVec w) :
    commonPostfixBits a b = commonPostfixBits b a :=
  congrArg trailingZeros (BitVec.xor_comm a b)

theorem lowW_getLsbD_of_lt {w i : Nat} (h : i < w) (v : PortWord) :
    (lowW w v).getLsbD i = v.getLsbD i := by
  rw [lowW_getLsbD, decide_eq_true h, Bool.true_and]

/-- Settles O9: every bit position the count looks at lies within the low `W` bits of the ports. -/
theorem cpfxCountsCommonLeadingBits : Obligations.CpfxCountsCommonLeadingBits := by
  unfold Obligations.CpfxCountsCommonLeadingBits
  refine ⟨⟨decode_encode .cpfx32, decode_encode .cpfx128⟩, fun W s => ?_⟩
  have hport (j : Nat) (v : PortWord) :
      (lowW W.bits v).getLsbD (W.bits - 1 - j) = v.getLsbD (W.bits - 1 - j) :=
    lowW_getLsbD_of_lt (by have := W.bits_pos; omega) v
  obtain ⟨hagree, hdiffer⟩ := commonPrefixBits_spec (lowW W.bits s.req.a) (lowW W.bits s.req.b)
  simp only [hport] at hagree hdiffer
  exact ⟨_, commonPrefixBits_le _ _, exec_cpfx rfl, hagree, hdiffer, commonPrefixBits_eq_width⟩

/-- Settles O10: every bit position the count looks at lies within the low `W` bits of the ports. -/
theorem cpostCountsCommonTrailingBits : Obligations.CpostCountsCommonTrailingBits := by
  unfold Obligations.CpostCountsCommonTrailingBits
  refine ⟨⟨decode_encode .cpost32, decode_encode .cpost128⟩, fun W s => ?_⟩
  have hle := commonPostfixBits_le (lowW W.bits s.req.a) (lowW W.bits s.req.b)
  obtain ⟨hagree, hdiffer⟩ := commonPostfixBits_spec (lowW W.bits s.req.a) (lowW W.bits s.req.b)
  refine ⟨_, hle, exec_cpost rfl, fun j hj => ?_, fun hlt => ?_, commonPostfixBits_eq_width⟩
  · have hj' : j < W.bits := by omega
    simpa only [lowW_getLsbD_of_lt hj'] using hagree j hj
  · simpa only [lowW_getLsbD_of_lt hlt] using hdiffer hlt

/-- Settles O11: the exclusive or of the operands is that of the exchanged operands. -/
theorem countsAreSymmetric : Obligations.CountsAreSymmetric := by
  unfold Obligations.CountsAreSymmetric
  rintro W op s (rfl | rfl)
  · exact ⟨_, exec_cpfx rfl, exec_cpfx (commonPrefixBits_comm _ _)⟩
  · exact ⟨_, exec_cpost rfl, exec_cpost (commonPostfixBits_comm _ _)⟩

/-! ### The range of every count -/

theorem legalResponse_of_step {s t : State} {i : Instr} (hi : decode s.fetch.req.cmd = .instr i)
    (h : step s = .next t) : LegalResponse i s.fetch.req t.rsp := by
  obtain ⟨rfl, hok⟩ := step_eq_next.1 h
  rw [requestOutcome_of_instr hi] at hok
  rw [portStep_rsp, portResponse, requestOutcome_of_instr hi]
  exact legalResponse_opOutcome hok

theorem upperBits_of_le {c : Count} (h : c.toNat ≤ 32) : c.extractLsb' 6 2 = 0#2 := by
  rw [← BitVec.toNat_inj, BitVec.extractLsb'_toNat, Nat.shiftRight_eq_div_pow,
    Nat.div_eq_of_lt (by omega)]
  rfl

/-- Settles O18: the response of a step that goes on is a legal one, whatever its status. -/
theorem countsLieWithinTheWidth : Obligations.CountsLieWithinTheWidth := by
  unfold Obligations.CountsLieWithinTheWidth
  intro s t i hi hstep _
  have hlegal := legalResponse_of_step hi hstep
  refine ⟨hlegal.countRange, fun hw => upperBits_of_le ?_, hlegal.noCount⟩
  simpa [hw, Width.bits] using hlegal.countRange

end Sys2Proof.Machine

/-! SUPPORT. What the two masks answer on the ports, DERIVE in terms of a mask, and the proofs of O12, O13, O14 and O31 from
them (R104 to R106, R140, R172). -/

namespace Sys2Proof.Machine

theorem exec_mpfx {W : Width} {s : State} {n : Nat} (hn : s.req.n.toNat = n) (hle : n ≤ W.bits) :
    exec (Instr.of .mpfx W) s = .next { s with rsp :=
      { status := 0b00#2, r := zext128 (prefixMask W.bits n), c := 0 } } := by
  subst hn
  rw [exec_of, opOutcome, mpfx, maskResult_eq, if_neg (Nat.not_lt.2 hle)]
  rfl

theorem exec_mpost {W : Width} {s : State} {n : Nat} (hn : s.req.n.toNat = n) (hle : n ≤ W.bits) :
    exec (Instr.of .mpost W) s = .next { s with rsp :=
      { status := 0b00#2, r := zext128 (postfixMask W.bits n), c := 0 } } := by
  subst hn
  rw [exec_of, opOutcome, mpost, maskResult_eq, if_neg (Nat.not_lt.2 hle)]
  rfl

/-- Above the width both masks are the fault `PRECOND` (R172). -/
theorem exec_mask_of_lt {op : Op} (hop : op = .mpfx ∨ op = .mpost) {W : Width} {s : State}
    (h : W.bits < s.req.n.toNat) : exec (Instr.of op W) s = .fault .precond :=
  exec_eq_fault_iff.2 ⟨rfl, by rwa [Instr.op_of], by rwa [Instr.width_of]⟩

/-! ### The masks on port `R` -/

theorem zext128_getLsbD_of_le {w : Nat} (h : w ≤ 128) (v : BitVec w) (j : Nat) :
    (zext128 v).getLsbD j = v.getLsbD j := by
  by_cases hj : j < w
  · rw [zext128_getLsbD, decide_eq_true (by omega), Bool.true_and]
  · rw [zext128_getLsbD_of_ge v (by omega), BitVec.getLsbD_of_ge v j (by omega)]

/-- The complement of an MPFX mask has as many leading zeros as the mask has ones (R104). -/
theorem leadingZeros_not_prefixMask {w n : Nat} (h : n ≤ w) :
    leadingZeros (~~~ prefixMask w n) = n := by
  rw [not_prefixMask h, leadingZeros_postfixMask (Nat.sub_le w n), Nat.sub_sub_self h]

/-- Settles O12: the mask reaches port `R` as it is, and above the width there is none. -/
theorem mpfxBuildsThePrefixMask : Obligations.MpfxBuildsThePrefixMask := by
  unfold Obligations.MpfxBuildsThePrefixMask
  refine ⟨⟨decode_encode .mpfx32, decode_encode .mpfx128⟩, fun W s =>
    ⟨fun hle => ⟨_, exec_mpfx rfl hle, ?value, fun j => ?bits, fun _ => ?inverse⟩,
      exec_mask_of_lt (.inl rfl)⟩⟩
  case value => rw [zext128_toNat W.bits_le, prefixMask_toNat]
  case bits => rw [zext128_getLsbD_of_le W.bits_le, prefixMask_getLsbD hle]
  case inverse =>
    exact (congrArg (leadingZeros <| ~~~ ·) (lowW_zext128 W.bits_le _)).trans
      (leadingZeros_not_prefixMask hle)

/-- Settles O13: the mask reaches port `R` as it is, and above the width there is none. -/
theorem mpostBuildsThePostfixMask : Obligations.MpostBuildsThePostfixMask := by
  unfold Obligations.MpostBuildsThePostfixMask
  refine ⟨⟨decode_encode .mpost32, decode_encode .mpost128⟩, fun W s =>
    ⟨fun hle => ⟨_, exec_mpost rfl hle, ?value, fun j => ?bits⟩, exec_mask_of_lt (.inr rfl)⟩⟩
  case value => rw [zext128_toNat W.bits_le, postfixMask_toNat hle]
  case bits => rw [zext128_getLsbD_of_le W.bits_le, postfixMask_getLsbD hle]

/-- Settles O14: within the width MPOST's mask of `W - n` is the complement of MPFX's mask of `n`. -/
theorem masksPartitionTheWidth : Obligations.MasksPartitionTheWidth := by
  unfold Obligations.MasksPartitionTheWidth
  intro W s n hn
  have hcompl := not_prefixMask hn
  refine ⟨_, _, exec_mpfx (countPort_toNat hn) hn,
    exec_mpost (countPort_toNat (Nat.sub_le _ n)) (Nat.sub_le _ n), ?or, ?and, ?not⟩
  case or => rw [← hcompl, zext128, zext128, ← BitVec.setWidth_or, BitVec.or_not_self]
  case and =>
    rw [← hcompl, zext128, zext128, ← BitVec.setWidth_and, BitVec.and_not_self]
    exact zext128_zero W.bits
  case not => rw [← lowW, ← lowW, lowW_zext128 W.bits_le, lowW_zext128 W.bits_le, hcompl]

/-! ### DERIVE by a host mask -/

/-- The pair of integers is an aligned block, in the terms of R140's arithmetic and in those of its mask. -/
theorem alignedBlock_iff_mask {w k : Nat} (hk : k ≤ w) (n b : BitVec w) :
    n.toNat % 2 ^ k = 0 ∧ b.toNat = n.toNat + (2 ^ k - 1) ↔
      n &&& postfixMask w k = 0 ∧ b = n ||| postfixMask w k := by
  rw [← hostBitsClear_iff hk, hostBitsClear, beq_iff_eq]
  refine and_congr_right fun hclear => ?_
  rw [← isLastAddress_iff hk ((hostBitsClear_iff hk n).1 (beq_iff_eq.2 hclear)), isLastAddress,
    beq_iff_eq]

/-- DERIVE on the ports, with the host mask below the `p` leading bits in common (R140). -/
theorem exec_derive {W : Width} {s : State} {p : Nat}
    (hp : commonPrefixBits (networkInt W s) (broadcastInt W s) = p) :
    exec (Instr.of .derive W) s = .next { s with rsp :=
      (if networkInt W s &&& postfixMask W.bits (W.bits - p) = 0 ∧
          broadcastInt W s = networkInt W s ||| postfixMask W.bits (W.bits - p) then
        { status := 0b00#2, r := zext128 (lowW W.bits s.req.a), c := BitVec.ofNat 8 p }
      else { status := 0b01#2, r := 0, c := 0 }) } := by
  subst hp
  rw [exec_of, opOutcome, derive_eq, deriveBlock_eq, ← networkInt, ← broadcastInt]
  simp only [alignedBlock_iff_mask (Nat.sub_le _ _)]
  split <;> rfl

/-- Settles O31: CPFX of the two integers is the length `p` that DERIVE computes, and MPOST of `W - p` its host mask. -/
theorem deriveAgreesWithBitOps : Obligations.DeriveAgreesWithBitOps := by
  unfold Obligations.DeriveAgreesWithBitOps
  intro W s
  have hp : commonPrefixBits (lowW W.bits (zext128 (networkInt W s)))
      (lowW W.bits (zext128 (broadcastInt W s))) =
      commonPrefixBits (networkInt W s) (broadcastInt W s) := by
    rw [lowW_zext128 W.bits_le, lowW_zext128 W.bits_le]
  have hle := commonPrefixBits_le (networkInt W s) (broadcastInt W s)
  generalize hq : commonPrefixBits (networkInt W s) (broadcastInt W s) = p at hp hle
  refine ⟨_, _, exec_cpfx hp, exec_mpost (n := W.bits - p) ?count (Nat.sub_le _ p), ?derive⟩
  case count =>
    dsimp only
    rw [countPort_toNat hle, countPort_toNat (Nat.sub_le _ p)]
  case derive =>
    dsimp only
    rw [← lowW, ← lowW, lowW_zext128 W.bits_le, exec_derive hq]
    rfl

end Sys2Proof.Machine

/-! SUPPORT. DERIVE on the ports in terms of the aligned blocks of `2^k` addresses (R146), and the proofs of O22 to O30 from
it (R140 to R151). -/

namespace Sys2Proof.Machine

/-! ### Aligned blocks -/

/-- The integers `n` and `b` are the first and the last address of an aligned block of `2^k` addresses (R146). -/
abbrev AlignedBlock {w : Nat} (n b : BitVec w) (k : Nat) : Prop :=
  2 ^ k ∣ n.toNat ∧ b.toNat = n.toNat + 2 ^ k - 1

theorem AlignedBlock.le {w k : Nat} {n b : BitVec w} (h : AlignedBlock n b k) :
    n.toNat ≤ b.toNat := by
  have := Nat.two_pow_pos k
  obtain ⟨-, hlast⟩ := h
  omega

theorem alignedBlock_self {w : Nat} (n : BitVec w) : AlignedBlock n n 0 := by
  simp [AlignedBlock]

/-- A block has one address exactly when its first and last address are equal (R141). -/
theorem AlignedBlock.eq_iff {w k : Nat} {n b : BitVec w} (h : AlignedBlock n b k) :
    n = b ↔ k = 0 := by
  obtain ⟨-, hlast⟩ := h
  have hpos := Nat.two_pow_pos k
  rw [← BitVec.toNat_inj, hlast]
  constructor
  · intro heq
    exact (Nat.pow_eq_one.1 (show 2 ^ k = 1 by omega)).resolve_left (by decide)
  · rintro rfl
    rfl

/-- No block of more than one address begins at an odd number (R142). -/
theorem AlignedBlock.eq_of_odd {w k : Nat} {n b : BitVec w} (h : AlignedBlock n b k)
    (hodd : n.getLsbD 0 = true) : n = b := by
  rw [h.eq_iff]
  by_contra hk
  have heven := (two_pow_dvd_toNat_iff n k).1 h.1 0 (Nat.pos_of_ne_zero hk)
  exact absurd (hodd.symm.trans heven) (by decide)

/-- An even number and the next one, which differs in bit 0 only, are a block of two (R142). -/
theorem alignedBlock_xor_one {w : Nat} (hw : 0 < w) {n : BitVec w} (heven : n.getLsbD 0 = false) :
    AlignedBlock n (n ^^^ 1) 1 := by
  have hdvd : 2 ^ 1 ∣ n.toNat := (two_pow_dvd_toNat_iff n 1).2 fun j hj => by
    rwa [Nat.lt_one_iff.1 hj]
  have hone : (1 : BitVec w).toNat = 1 := BitVec.toNat_one hw
  refine ⟨hdvd, ?_⟩
  rw [BitVec.toNat_xor, hone, Nat.xor_one_of_even (even_iff_two_dvd.2 hdvd)]
  omega

/-- The block of all `2^W` addresses (R143). -/
theorem alignedBlock_width_iff {w : Nat} {n b : BitVec w} :
    AlignedBlock n b w ↔ n = 0 ∧ b = BitVec.allOnes w := by
  constructor
  · rintro ⟨hdvd, hlast⟩
    have hzero : n.toNat = 0 := Nat.eq_zero_of_dvd_of_lt hdvd n.isLt
    refine ⟨BitVec.eq_of_toNat_eq hzero, BitVec.eq_of_toNat_eq ?_⟩
    rw [hlast, hzero, Nat.zero_add, BitVec.toNat_allOnes]
  · rintro ⟨rfl, rfl⟩
    exact ⟨Nat.dvd_zero _, by simp⟩

/-! ### What DERIVE answers -/

/-- With `W` network bits the host mask is empty (R140, R141). -/
theorem not_prefixMask_width (w : Nat) : ~~~ prefixMask w w = 0 := by
  rw [not_prefixMask le_rfl, Nat.sub_self]
  rfl

theorem networkInt_eq_broadcastInt_iff {W : Width} {s : State} :
    networkInt W s = broadcastInt W s ↔ lowW W.bits s.req.a = lowW W.bits s.req.b :=
  (toInteger_bijective W).injective.eq_iff

/-- DERIVE by the arithmetic of R140, with `p` leading bits in common. -/
theorem exec_derive_eq_ite (W : Width) (s : State) {p : Nat}
    (hp : commonPrefixBits (networkInt W s) (broadcastInt W s) = p) :
    exec (Instr.of .derive W) s = .next { s with rsp :=
      (if (networkInt W s).toNat % 2 ^ (W.bits - p) = 0 ∧
          (broadcastInt W s).toNat = (networkInt W s).toNat + (2 ^ (W.bits - p) - 1) then
        { status := 0b00#2, r := zext128 (lowW W.bits s.req.a), c := BitVec.ofNat 8 p }
      else { status := 0b01#2, r := 0, c := 0 }) } := by
  rw [exec_derive hp]
  simp only [alignedBlock_iff_mask (Nat.sub_le _ p)]

/-- An aligned block is answered whole, with the network as given (R146, R148). -/
theorem exec_derive_of_alignedBlock {W : Width} {s : State} {k : Nat} (hk : k ≤ W.bits)
    (h : AlignedBlock (networkInt W s) (broadcastInt W s) k) :
    exec (Instr.of .derive W) s = .next { s with rsp :=
      { status := 0b00#2, r := zext128 (lowW W.bits s.req.a)
        c := BitVec.ofNat 8 (W.bits - k) } } := by
  rw [exec_of, opOutcome, derive_eq, deriveBlock_of_alignedBlock hk h.1 h.2]
  rfl

/-- A pair that is no aligned block is answered with the error alone (R149, R151). -/
theorem exec_derive_of_not_alignedBlock {W : Width} {s : State}
    (h : ∀ k ≤ W.bits, ¬ AlignedBlock (networkInt W s) (broadcastInt W s) k) :
    exec (Instr.of .derive W) s =
      .next { s with rsp := { status := 0b01#2, r := 0, c := 0 } } := by
  rw [exec_of, opOutcome, derive_eq, (deriveBlock_eq_none_iff _ _).2 h]
  rfl

/-- Everything DERIVE can answer with the status `OK` (R146). -/
theorem alignedBlock_of_exec_derive {W : Width} {s t : State}
    (h : exec (Instr.of .derive W) s = .next t) (hok : t.rsp.status = 0b00#2) :
    ∃ k ≤ W.bits, AlignedBlock (networkInt W s) (broadcastInt W s) k ∧
      t.rsp.r = zext128 (lowW W.bits s.req.a) ∧ t.rsp.c.toNat = W.bits - k := by
  have hblock : ∃ k ≤ W.bits, AlignedBlock (networkInt W s) (broadcastInt W s) k := by
    by_contra hnone
    have herr := (status_of_exec_derive h).2 fun k hk hab => hnone ⟨k, hk, hab⟩
    exact absurd (hok.symm.trans herr) (by decide)
  obtain ⟨k, hk, hab⟩ := hblock
  rw [exec_derive_of_alignedBlock hk hab] at h
  cases h
  exact ⟨k, hk, hab, rfl, countPort_toNat (Nat.sub_le _ k)⟩

/-- A single host (R141). -/
theorem exec_derive_of_eq {W : Width} {s : State} (h : networkInt W s = broadcastInt W s) :
    exec (Instr.of .derive W) s = .next { s with rsp :=
      { status := 0b00#2, r := zext128 (lowW W.bits s.req.a), c := BitVec.ofNat 8 W.bits } } :=
  exec_derive_of_alignedBlock (Nat.zero_le _) (h ▸ alignedBlock_self _)

theorem exec_derive_of_lt {W : Width} {s : State}
    (h : (broadcastInt W s).toNat < (networkInt W s).toNat) :
    exec (Instr.of .derive W) s =
      .next { s with rsp := { status := 0b01#2, r := 0, c := 0 } } :=
  exec_derive_of_not_alignedBlock fun _ _ hab => Nat.not_lt.2 hab.le h

theorem exec_derive_of_odd {W : Width} {s : State} (hodd : (networkInt W s).getLsbD 0 = true)
    (hne : networkInt W s ≠ broadcastInt W s) :
    exec (Instr.of .derive W) s =
      .next { s with rsp := { status := 0b01#2, r := 0, c := 0 } } :=
  exec_derive_of_not_alignedBlock fun _ _ hab => hne (hab.eq_of_odd hodd)

/-- An instruction executed again on the state it answered changes nothing: it reads the request only (R20, R40). -/
theorem exec_of_exec_eq_next {i : Instr} {s t : State} (h : exec i s = .next t) :
    exec i t = .next t := by
  rw [exec_eq, deliver_eq_next] at h
  obtain ⟨rfl, hok⟩ := h
  exact (exec_eq i _).trans (deliver_eq_next.2 ⟨rfl, hok⟩)

/-! ### The obligations -/

/-- Settles O22: `p` is the common prefix count, which is below `W` for different integers. -/
theorem deriveFollowsItsSteps : Obligations.DeriveFollowsItsSteps := by
  unfold Obligations.DeriveFollowsItsSteps
  refine ⟨⟨decode_encode .derive32, decode_encode .derive128⟩,
    fun W s => ⟨exec_derive_of_eq, fun hne => ?_⟩⟩
  have hlt : commonPrefixBits (networkInt W s) (broadcastInt W s) < W.bits :=
    Nat.lt_of_le_of_ne (commonPrefixBits_le _ _) (mt commonPrefixBits_eq_width.1 hne)
  obtain ⟨hagree, hdiffer⟩ := commonPrefixBits_spec (networkInt W s) (broadcastInt W s)
  have hexec := exec_derive_eq_ite W s rfl
  refine ⟨_, hlt, hagree, hdiffer hlt, fun hhost => ?step5, fun _ hlast => ?step6,
    fun hhost hlast => ?step7⟩
  case step5 => rw [hexec, if_neg fun h => hhost h.1]
  case step6 => rw [hexec, if_neg fun h => hlast h.2]
  case step7 => rw [hexec, if_pos ⟨hhost, hlast⟩]; rfl

/-- Settles O23: the common prefix of a block's first and last address leaves exactly its `k` host bits. -/
theorem deriveAcceptsExactlyAlignedBlocks : Obligations.DeriveAcceptsExactlyAlignedBlocks := by
  unfold Obligations.DeriveAcceptsExactlyAlignedBlocks
  exact fun W s => ⟨fun k hk hdvd hlast => exec_derive_of_alignedBlock hk ⟨hdvd, hlast⟩,
    exec_derive_of_not_alignedBlock⟩

/-- Settles O24: `C = W` is a block of `2^0` addresses, and the host mask of `W` network bits is 0. -/
theorem equalAddressesAreASingleHost : Obligations.EqualAddressesAreASingleHost := by
  unfold Obligations.EqualAddressesAreASingleHost
  refine fun W s => ⟨networkInt_eq_broadcastInt_iff, exec_derive_of_eq, fun t h hok hc => ?only,
    fun n => ⟨commonPrefixBits_self n, ?step5, ?step6⟩⟩
  case only =>
    obtain ⟨k, hk, hab, -, hcount⟩ := alignedBlock_of_exec_derive h hok
    rw [hc, countPort_toNat le_rfl] at hcount
    exact hab.eq_iff.2 (by omega)
  case step5 => rw [not_prefixMask_width]; exact BitVec.and_zero
  case step6 => rw [not_prefixMask_width]; exact BitVec.or_zero.symm

/-- Settles O25: an even number begins a block of two, an odd one no block but its own. -/
theorem adjacentAddressesFormTheSmallestBlock :
    Obligations.AdjacentAddressesFormTheSmallestBlock := by
  unfold Obligations.AdjacentAddressesFormTheSmallestBlock
  refine ⟨fun W s hadj => ⟨fun heven => ?even, fun hodd => ?odd⟩, fun s => ?worked⟩
  case even =>
    exact exec_derive_of_alignedBlock W.bits_pos (hadj ▸ alignedBlock_xor_one W.bits_pos heven)
  case odd =>
    refine exec_derive_of_odd hodd fun heq => ?_
    have hbit := congrArg (BitVec.getLsbD · 0) (heq.trans hadj)
    simp [W.bits_pos] at hbit
  case worked =>
    refine exec_derive_of_odd (W := .w32) ?_ ?_
    · dsimp only [networkInt]
      decide
    · dsimp only [networkInt, broadcastInt]
      decide

/-- Settles O26: `C = 0` is a block of `2^W` addresses. -/
theorem prefixLengthZeroIsTheWholeSpace : Obligations.PrefixLengthZeroIsTheWholeSpace := by
  unfold Obligations.PrefixLengthZeroIsTheWholeSpace
  refine fun W s => ⟨fun hall => ?whole, fun t h hok hc => ?only⟩
  case whole =>
    have hnet : lowW W.bits s.req.a = 0 := by
      rw [← toInteger_involutive W (lowW W.bits s.req.a), ← networkInt, hall.1, toInteger_zero]
    rw [exec_derive_of_alignedBlock le_rfl (alignedBlock_width_iff.2 hall), hnet, zext128_zero,
      Nat.sub_self]
    rfl
  case only =>
    obtain ⟨k, hk, hab, -, hcount⟩ := alignedBlock_of_exec_derive h hok
    obtain rfl : k = W.bits := by
      have : t.rsp.c.toNat = 0 := congrArg BitVec.toNat hc
      omega
    exact alignedBlock_width_iff.1 hab

/-- Settles O27: the mask is that of the block's `k` host bits, and `2^k` divides its first address. -/
theorem derivedNetworkHasZeroHostBits : Obligations.DerivedNetworkHasZeroHostBits := by
  unfold Obligations.DerivedNetworkHasZeroHostBits
  intro W s t h hok
  obtain ⟨k, hk, ⟨hdvd, -⟩, hr, hcount⟩ := alignedBlock_of_exec_derive h hok
  rw [hcount, Nat.sub_sub_self hk, ← lowW, hr, lowW_zext128 W.bits_le, ← networkInt]
  exact beq_iff_eq.1 ((hostBitsClear_iff hk _).2 (Nat.mod_eq_zero_of_dvd hdvd))

/-- Settles O28: the prefix length is `W - k`, and `k = 0` exactly for equal integers. -/
theorem prefixLengthLiesInRange : Obligations.PrefixLengthLiesInRange := by
  unfold Obligations.PrefixLengthLiesInRange
  intro W s t h hok
  obtain ⟨k, hk, hab, -, hcount⟩ := alignedBlock_of_exec_derive h hok
  have hpos := W.bits_pos
  rw [ne_eq, hab.eq_iff, hcount]
  omega

/-- Settles O29: a block ends no earlier than it begins, and where its ends differ it ends later. -/
theorem swappedAddressesFail : Obligations.SwappedAddressesFail := by
  unfold Obligations.SwappedAddressesFail
  refine ⟨fun W s => exec_derive_of_lt, fun W s t h hok => ⟨fun hne => ?different, fun heq => ?equal⟩,
    fun s => ?worked⟩
  case different =>
    obtain ⟨k, -, hab, -⟩ := alignedBlock_of_exec_derive h hok
    have hint : networkInt W s ≠ broadcastInt W s := mt networkInt_eq_broadcastInt_iff.1 hne
    exact exec_derive_of_lt (Nat.lt_of_le_of_ne hab.le (mt BitVec.eq_of_toNat_eq hint))
  case equal =>
    have hint : networkInt W s = broadcastInt W s := networkInt_eq_broadcastInt_iff.2 heq
    rw [exec_derive_of_eq hint] at h
    cases h
    refine (exec_derive_of_eq ?_).trans ?_
    · exact hint.symm
    · dsimp only [lowW]
      rw [heq]
  case worked =>
    refine exec_derive_of_lt (W := .w32) ?_
    dsimp only [networkInt, broadcastInt]
    decide

/-- Settles O30: either the pair is an aligned block or it is none; the answer is on the response ports only. -/
theorem deriveIsAtomicAndNeverNormalizes : Obligations.DeriveIsAtomicAndNeverNormalizes := by
  unfold Obligations.DeriveIsAtomicAndNeverNormalizes
  intro W s
  by_cases hblock : ∃ k ≤ W.bits, AlignedBlock (networkInt W s) (broadcastInt W s) k
  · obtain ⟨k, hk, hab⟩ := hblock
    have hexec := exec_derive_of_alignedBlock hk hab
    have hle := Nat.sub_le W.bits k
    exact ⟨_, hexec, rfl, rfl, .inl ⟨rfl, rfl, (countPort_toNat hle).trans_le hle⟩,
      exec_of_exec_eq_next hexec⟩
  · have hexec := exec_derive_of_not_alignedBlock fun k hk hab => hblock ⟨k, hk, hab⟩
    exact ⟨_, hexec, rfl, rfl, .inr rfl, exec_of_exec_eq_next hexec⟩

end Sys2Proof.Machine

/-! SUPPORT. What the ports show of a fault, the next request after any transactions, and the proofs of O7, O15, O34 and
O35 from them (R170, R172, R176, R177). -/

namespace Sys2Proof.Machine

/-! ### A fault at the ports -/

/-- The whole effect of a faulting transaction is its response (R176). -/
theorem portStep_of_fault {s : State} {f : Fault} (h : step s = .fault f) :
    portStep s = { s.fetch with rsp := pack (.fault f) } := by
  rw [portStep, portResponse, step_eq_fault.1 h]
  rfl

/-- Settles O34: a step that goes on is the transaction at the ports, and a fault is packed there with its code. -/
theorem portsShowEveryOutcome : Obligations.PortsShowEveryOutcome := by
  unfold Obligations.PortsShowEveryOutcome
  exact ⟨fun _ _ h => (step_eq_next.1 h).1.symm, fun _ => portStep_of_fault, fun _ => portStep_of_fault⟩

/-- Settles O15: of an instruction's operands only a mask's count above the width stops it, with this one fault. -/
theorem maskPreconditionFaults : Obligations.MaskPreconditionFaults := by
  unfold Obligations.MaskPreconditionFaults
  refine ⟨fun i s => ?_, fun s h => ?_⟩
  · rw [exec_eq_fault_iff, eq_self_iff_true, true_and]
  · rw [portStep_of_fault h, pack_precond]

/-- Settles O7: the three ways are the three shapes of `F` of the fetched request, each delivered as itself. -/
theorem everyRequestEndsInOneOfThreeWays : Obligations.EveryRequestEndsInOneOfThreeWays := by
  unfold Obligations.EveryRequestEndsInOneOfThreeWays
  intro s
  have hstep := step_eq_deliver s
  cases hv : requestOutcome s.fetch.req with rw [hv] at hstep
  | ok r c => exact .inl ⟨_, hstep, rfl⟩
  | invalidNetworkBoundary => exact .inr (.inl ⟨_, hstep, rfl⟩)
  | fault f =>
    have hport := portStep_of_fault hstep
    cases f with
    | precond => exact .inr (.inr (.inl ⟨hstep, by rw [hport, pack_precond]⟩))
    | illegal => exact .inr (.inr (.inr ⟨hstep, by rw [hport, pack_illegal]⟩))

/-! ### The request after any transactions -/

/-- The request a host presents next is answered by its own `F`, faulting or not, whatever the ports hold (R20, R70). -/
theorem step_of_pending {s : State} {q : Request} {qs : List Request} (h : s.pending = q :: qs) :
    step s = deliver (requestOutcome q) { s with req := q, pending := qs } := by
  rw [step_eq_deliver, State.fetch_of_cons h]

theorem portStep_rsp_of_pending {s : State} {q : Request} {qs : List Request}
    (h : s.pending = q :: qs) : (portStep s).rsp = portResponse q := by
  rw [portStep_rsp, State.fetch_of_cons h]

/-- Settles O35: the next request is answered by its own rule from every state, so from the one any transactions leave. -/
theorem faultsDoNotLatch : Obligations.FaultsDoNotLatch := by
  unfold Obligations.FaultsDoNotLatch
  intro s k q
  exact ⟨step_of_pending rfl, portStep_rsp_of_pending rfl⟩

end Sys2Proof.Machine

/-! SUPPORT. One request as the host's duties decide it, its independence of the state before it, runs of well-formed
requests, and the proofs of O40, O41 and O44 from them (R170, R200, R204). -/

namespace Sys2Proof.Machine

/-! ### The host's duties and the step -/

/-- A step goes on exactly when the host has met its duties (R204). -/
theorem exists_step_eq_next_iff (s : State) :
    (∃ t, step s = .next t) ↔ s.fetch.req.wellFormed = true := by
  simp only [step_eq_next, wellFormed_iff, exists_eq_left]

/-- A step stops with a fault exactly when the host has neglected one of its duties (R172, R173, R204). -/
theorem exists_step_eq_fault_iff (s : State) :
    (∃ f, step s = .fault f) ↔ s.fetch.req.wellFormed = false := by
  rw [Bool.eq_false_iff, ne_eq, wellFormed_iff, not_forall]
  simp only [step_eq_fault, not_not]

theorem exists_fault_iff {p : Fault → Prop} : (∃ f, p f) ↔ p .precond ∨ p .illegal := by
  refine ⟨?_, fun h => h.elim (⟨_, ·⟩) (⟨_, ·⟩)⟩
  rintro ⟨f, hf⟩
  cases f with
  | precond => exact .inl hf
  | illegal => exact .inr hf

/-- Settles O40: the step goes on, or stops with one of the two faults, as the fetched request decides. -/
theorem wellFormedRequestsAreAnswered : Obligations.WellFormedRequestsAreAnswered := by
  unfold Obligations.WellFormedRequestsAreAnswered
  intro s
  exact ⟨(exists_step_eq_next_iff s).symm,
    (exists_step_eq_fault_iff s).symm.trans exists_fault_iff⟩

/-- The response ports a transaction starts from play no part in how it ends (R20). -/
theorem deliver_congr {v : Verdict} {s t : State} (hreq : s.req = t.req)
    (hpending : s.pending = t.pending) : deliver v s = deliver v t := by
  cases v <;> simp [State.respond, hreq, hpending]

/-- Settles O44: with a request pending, the step reads nothing else of the state it starts from. -/
theorem firstRequestAfterResetIsLikeAnyOther : Obligations.FirstRequestAfterResetIsLikeAnyOther := by
  unfold Obligations.FirstRequestAfterResetIsLikeAnyOther
  intro s q
  have hsame : step { State.reset with pending := [q] } = step { s with pending := [q] } := by
    rw [step_of_pending rfl, step_of_pending rfl]
    exact deliver_congr rfl rfl
  exact ⟨fun f => by rw [hsame], fun t => by rw [hsame]⟩

/-! ### Programs of well-formed requests -/

/-- A safe program's next request is well formed, whether it is pending or held on the ports. -/
theorem SafeProgram.wellFormed_fetch {s : State} (h : SafeProgram s) :
    s.fetch.req.wellFormed = true := by
  obtain ⟨hpending, hheld⟩ := h
  cases hs : s.pending with
  | nil => rw [State.fetch_of_nil hs]; exact hheld hs
  | cons q qs => rw [State.fetch_of_cons hs]; exact hpending q (by simp [hs])

theorem State.fetch_pending (s : State) : s.fetch.pending = s.pending.tail := by
  cases hs : s.pending with
  | nil => rw [State.fetch_of_nil hs, hs]; rfl
  | cons q qs => rw [State.fetch_of_cons hs]; rfl

/-- Every step of a safe program goes on, and what is left of the program is safe (R204). -/
theorem SafeProgram.exists_step {s : State} (h : SafeProgram s) :
    ∃ t, step s = .next t ∧ SafeProgram t := by
  have hreq := h.wellFormed_fetch
  obtain ⟨hpending, -⟩ := h
  refine ⟨portStep s, step_eq_next.2 ⟨rfl, (wellFormed_iff _).1 hreq⟩, fun q hq => ?_, fun _ => hreq⟩
  rw [portStep_pending, State.fetch_pending] at hq
  exact hpending q (List.mem_of_mem_tail hq)

end Sys2Proof.Machine

namespace Sys2Proof

/-- A property from which every step goes on to a state with that property keeps a run from ever stopping. -/
theorem core_run_of_progress {P : core.State → Prop}
    (hstep : ∀ s, P s → ∃ t, core.step s = .next t ∧ P t) (k : Nat) {s : core.State} (hs : P s) :
    ∃ t, core.run k s = .next t ∧ P t := by
  induction k generalizing s with
  | zero => exact ⟨s, core_run_zero s, hs⟩
  | succ k ih =>
    obtain ⟨t, hst, ht⟩ := hstep s hs
    rw [core_run_of_next hst]
    exact ih ht

/-- Settles O41: a safe program is kept by every step, and none of its steps stops. -/
theorem safeProgramsNeverFault : Obligations.SafeProgramsNeverFault := by
  unfold Obligations.SafeProgramsNeverFault
  intro s hs k
  exact core_run_of_progress (fun _ => Machine.SafeProgram.exists_step) k hs

end Sys2Proof

/-! SUPPORT. The counts and the masks of a value cut into a high and a low part, at every pair of widths, and the proof of
O17 from them (R205). -/

namespace Sys2Proof.Machine

/-! ### The counts -/

theorem getLsbD_append_high {m n : Nat} (hi : BitVec m) (lo : BitVec n) {j : Nat} (hj : j < m) :
    (hi ++ lo).getLsbD (m + n - 1 - j) = hi.getLsbD (m - 1 - j) := by
  rw [BitVec.getLsbD_append, if_neg (by omega), show m + n - 1 - j - n = m - 1 - j by omega]

theorem getLsbD_append_low {m n : Nat} (hi : BitVec m) (lo : BitVec n) {j : Nat} (hj : j < n) :
    (hi ++ lo).getLsbD j = lo.getLsbD j := by
  rw [BitVec.getLsbD_append, if_pos hj]

/-- A high part with a one in it decides the leading zeros. -/
theorem leadingZeros_append_of_ne_zero {m n : Nat} {hi : BitVec m} (h : hi ≠ 0) (lo : BitVec n) :
    leadingZeros (hi ++ lo) = leadingZeros hi := by
  have hlt := leadingZeros_lt_width h
  obtain ⟨-, hzeros, hone⟩ := leadingZeros_spec hi
  refine leadingZeros_unique (by omega) (fun j hj => ?_) fun _ => ?_
  · rw [getLsbD_append_high hi lo (by omega), hzeros j hj]
  · rw [getLsbD_append_high hi lo hlt, hone hlt]

/-- A high part of zeros puts its width before the leading zeros of the low part. -/
theorem leadingZeros_zero_append {m n : Nat} (lo : BitVec n) :
    leadingZeros ((0 : BitVec m) ++ lo) = m + leadingZeros lo := by
  obtain ⟨hle, hzeros, hone⟩ := leadingZeros_spec lo
  refine leadingZeros_unique (by omega) (fun j hj => ?_) fun hlt => ?_
  · by_cases hjm : j < m
    · rw [getLsbD_append_high _ lo hjm]
      exact BitVec.getLsbD_zero
    · rw [show m + n - 1 - j = n - 1 - (j - m) by omega, getLsbD_append_low _ lo (by omega),
        hzeros _ (by omega)]
  · rw [show m + n - 1 - (m + leadingZeros lo) = n - 1 - leadingZeros lo by omega,
      getLsbD_append_low _ lo (by omega), hone (by omega)]

/-- A low part with a one in it decides the trailing zeros. -/
theorem trailingZeros_append_of_ne_zero {m n : Nat} (hi : BitVec m) {lo : BitVec n} (h : lo ≠ 0) :
    trailingZeros (hi ++ lo) = trailingZeros lo := by
  have hlt := trailingZeros_lt_width h
  obtain ⟨-, hzeros, hone⟩ := trailingZeros_spec lo
  refine trailingZeros_unique (by omega) (fun j hj => ?_) fun _ => ?_
  · rw [getLsbD_append_low hi lo (by omega), hzeros j hj]
  · rw [getLsbD_append_low hi lo hlt, hone hlt]

/-- A low part of zeros puts its width before the trailing zeros of the high part. -/
theorem trailingZeros_append_zero {m n : Nat} (hi : BitVec m) :
    trailingZeros (hi ++ (0 : BitVec n)) = n + trailingZeros hi := by
  obtain ⟨hle, hzeros, hone⟩ := trailingZeros_spec hi
  refine trailingZeros_unique (by omega) (fun j hj => ?_) fun hlt => ?_
  · by_cases hjn : j < n
    · rw [getLsbD_append_low hi _ hjn]
      exact BitVec.getLsbD_zero
    · rw [BitVec.getLsbD_append, if_neg hjn, hzeros _ (by omega)]
  · rw [BitVec.getLsbD_append, if_neg (by omega), Nat.add_sub_cancel_left, hone (by omega)]

/-! ### The masks -/

theorem prefixMask_zero (w : Nat) : prefixMask w 0 = 0 := by
  rw [prefixMask, Nat.sub_zero, Nat.sub_self]
  rfl

theorem prefixMask_width (w : Nat) : prefixMask w w = BitVec.allOnes w := by
  rw [← BitVec.not_inj, not_prefixMask_width, BitVec.not_allOnes]
  rfl

theorem postfixMask_zero (w : Nat) : postfixMask w 0 = 0 := rfl

theorem postfixMask_width (w : Nat) : postfixMask w w = BitVec.allOnes w := by
  have h := not_prefixMask (Nat.zero_le w)
  rw [prefixMask_zero, Nat.sub_zero] at h
  exact h.symm.trans BitVec.not_zero

/-- The MPFX mask as long as the high part is ones there and zeros in the low part (R104). -/
theorem prefixMask_append (m n : Nat) :
    prefixMask (m + n) m = BitVec.allOnes m ++ (0 : BitVec n) := by
  refine BitVec.eq_of_getLsbD_eq fun i hi => ?_
  rw [prefixMask_getLsbD (by omega), BitVec.getLsbD_append, Nat.add_sub_cancel_left]
  by_cases hin : i < n
  · simp [hin, Nat.not_le.2 hin]
  · have hhigh : i - n < m := by omega
    simp [hin, hhigh, hi, Nat.not_lt.1 hin]

/-- The MPOST mask as long as the low part is ones there and zeros in the high part (R105, R106). -/
theorem postfixMask_append (m n : Nat) :
    postfixMask (m + n) n = (0 : BitVec m) ++ BitVec.allOnes n := by
  have h := not_prefixMask (Nat.le_add_right m n)
  rw [prefixMask_append, Nat.add_sub_cancel_left, BitVec.not_append, BitVec.not_allOnes] at h
  exact h.symm.trans (congrArg (0#m ++ ·) BitVec.not_zero)

/-! ### Equality -/

theorem append_eq_append_iff {m n : Nat} {hi hi' : BitVec m} {lo lo' : BitVec n} :
    hi ++ lo = hi' ++ lo' ↔ hi = hi' ∧ lo = lo' := by
  constructor
  · intro h
    have hhigh := congrArg (BitVec.extractLsb' n m) h
    have hlow := congrArg (BitVec.setWidth n) h
    rw [BitVec.extractLsb'_append_eq_left, BitVec.extractLsb'_append_eq_left] at hhigh
    rw [BitVec.setWidth_append_eq_right, BitVec.setWidth_append_eq_right] at hlow
    exact ⟨hhigh, hlow⟩
  · rintro ⟨rfl, rfl⟩
    rfl

/-- Settles O17: every clause is the two halves' case of a fact about parts of any width. -/
theorem wideOperationsAgreeWithHalves : Obligations.WideOperationsAgreeWithHalves := by
  unfold Obligations.WideOperationsAgreeWithHalves
  refine ⟨fun hi lo => ⟨?leading, ?trailing⟩, fun _ _ _ _ => append_eq_append_iff,
    prefixMask_zero 128, prefixMask_append 64 64, prefixMask_width 128,
    postfixMask_zero 128, postfixMask_append 64 64, postfixMask_width 128⟩
  case leading =>
    split
    next h => rw [h]; exact leadingZeros_zero_append lo
    next h => exact leadingZeros_append_of_ne_zero h lo
  case trailing =>
    split
    next h => rw [h]; exact trailingZeros_append_zero hi
    next h => exact trailingZeros_append_of_ne_zero hi h

end Sys2Proof.Machine
